-- ==== Sys2Proof/Word.lean ====
section
/-! DEFINITION. The plain value types of the MiniCPU: the 64-bit word of registers, slots and pc (R20, R24, R30),
character strings (R7, R31, R63), and the index of one of the 128 value-store slots (R30). -/

namespace Sys2Proof

/-- `P_REG_WIDTH` = 64: a signed two's-complement integer; its mathematical value is `toInt` (R6, R7, R20). -/
abbrev Word := BitVec 64

/-- A character string: symbol names, literal strings, program text. Two strings are equal exactly when their
characters are (R31). DESIGN CHOICE (log 14): a character is a Unicode scalar value. -/
abbrev Text := List Char

/-- A value-store slot index, 0..127 (`P_STORE_SLOTS`, R30). -/
abbrev Slot := Fin 128

end Sys2Proof
end

