-- ==== Sys2Proof/Config.lean ====
section
/-! DEFINITION. The implementation parameters of 00_scope.md R6: the fixed ones as constants, and the ones marked
"parameter" as the fields of `Params`, with the defaults the rule gives. -/

namespace Sys2Proof

/-- `P_PROG_SLOTS`: program-memory slots, indices 0..127 (R6, R33). -/
def Config.progSlots : Nat := 128

/-- `P_SYM_MAX`: the most symbols the table can hold (R6, R31). -/
def Config.symMax : Nat := 128

/-- `P_ADD_LO`: an ADD sum at or below it overflows (R6, R141). -/
def Config.addLo : Int := -2147483648

/-- `P_ADD_HI`: an ADD sum at or above it overflows (R6, R141; 90_conflicts.md C1 and C2). -/
def Config.addHi : Int := 2147483647

/-- `P_CHECKPOINT`: instructions of one run-to-halt invocation before the pause (R6, R156). -/
def Config.checkpointInterval : Nat := 1000

/-- `P_UNDECLARED`: what LDA, LDB and STR do with a name that is not declared (R6, R110). -/
inductive UndeclaredPolicy where
  | fault
  | legacySlot0
deriving DecidableEq, Repr

/-- `P_DEC_POLICY`: DEC's free-slot policy (R6, R101, R102). -/
inductive DecPolicy where
  | programOccupancy
  | storeOccupancy
deriving DecidableEq, Repr

/-- The parameters a model takes as arguments (R6). DESIGN CHOICE (log 4): the literal bounds are signed 64-bit
values, so that a literal in range always fits a register. -/
structure Params where
  litMin     : Word
  litMax     : Word
  undeclared : UndeclaredPolicy
  decPolicy  : DecPolicy
deriving DecidableEq, Repr

/-- The defaults of R6. -/
def Params.standard : Params where
  litMin     := BitVec.ofInt 64 (-2147483648)
  litMax     := BitVec.ofInt 64 2147483647
  undeclared := .fault
  decPolicy  := .programOccupancy

end Sys2Proof
end

