-- ==== Sys2Proof/Machine/Flags.lean ====
section
/-! DEFINITION. The ADD unit: the exact sum and the four-way flag derivation (R140, R141, R143). -/

namespace Sys2Proof.Machine

/-- What ADD leaves in `A`, `ZF` and `OF` (R141). -/
structure AddResult where
  regA : Word
  zf   : Bool
  ovf  : Bool
deriving DecidableEq, Repr

/-- The exact mathematical sum of two signed 64-bit values (R143). -/
def exactSum (a b : Word) : Int := a.toInt + b.toInt

/-- The four branches "in this exact order" (R141); `zf` and `ovf` are the flags before. -/
def addUnit (a b : Word) (zf ovf : Bool) : AddResult :=
  if exactSum a b ≤ Config.addLo then ⟨a, zf, true⟩
  else if Config.addHi ≤ exactSum a b then ⟨a, zf, true⟩
  else if exactSum a b = 0 then ⟨0, true, ovf⟩
  else ⟨BitVec.ofInt 64 (exactSum a b), false, false⟩

end Sys2Proof.Machine
end

