-- ==== Sys2Proof/Syntax.lean ====
section
/-! DEFINITION. The closed set of 11 instructions (R1, R12, R63), one constructor per row of spec/opcode_table.json.
The operand stays text, because the core parses a literal only when the instruction executes (R60, R74). -/

namespace Sys2Proof

/-- The 11 instruction variants; a symbol name for DEC, LDA, LDB and STR, a literal string for LDI, a target string
(with its leading separator, R65) for JMP, JZS and JVS, and no operand for XCH, ADD and HLT (R63). -/
inductive Instr where
  | dec (name : Text)
  | lda (name : Text)
  | ldb (name : Text)
  | ldi (lit : Text)
  | str (name : Text)
  | xch
  | jmp (target : Text)
  | jzs (target : Text)
  | jvs (target : Text)
  | add
  | hlt
deriving DecidableEq, Repr

end Sys2Proof
end

