-- ==== Sys2Proof/WellFormed.lean ====
section
/-! DEFINITION. Which instructions some program text line stands for: the operand forms the loader can deliver
(R64, R65, R67, R75). The machine itself runs every `Instr`; well-formedness only says which ones have a text line. -/

namespace Sys2Proof

/-- A token operand holds no space, which would end it (R64), and no LF, which would end its line (R75). -/
def tokenWf (t : Text) : Bool :=
  t.all fun c => c != ' ' && c != '\n'

/-- A jump operand is the rest of the line after the opcode: empty, or a space and then anything but LF
(R65, R75). -/
def restWf : Text → Bool
  | []     => true
  | c :: t => c == ' ' && t.all (· != '\n')

/-- The operand of `i` is one that the loader delivers from a text line. -/
def Instr.wf : Instr → Bool
  | .dec n => tokenWf n
  | .lda n => tokenWf n
  | .ldb n => tokenWf n
  | .ldi l => tokenWf l
  | .str n => tokenWf n
  | .xch   => true
  | .jmp t => restWf t
  | .jzs t => restWf t
  | .jvs t => restWf t
  | .add   => true
  | .hlt   => true

end Sys2Proof
end

