-- ==== Sys2Proof/Decode.lean ====
section
/-! DEFINITION. The two encodings of R60: the program-memory record (R63), decoded and encoded; and the external text
line (R61), read by the loader's tokeniser (R62, R64, R65, R67, R70, R75) and rendered back. -/

namespace Sys2Proof

/-- One program-memory slot: a 5-bit header and an operand string, or no operand (R63). -/
structure Record where
  header  : BitVec 5
  operand : Option Text
deriving DecidableEq, Repr

/-- The record of a slot that holds no instruction (R63). -/
def Record.empty : Record := ⟨0x00, none⟩

/-- header[4]: 1 if the slot holds an instruction (R63). -/
def Record.present (r : Record) : Bool := r.header.getLsbD 4

/-- header[3:0]: the instruction kind (R63). -/
def Record.tag (r : Record) : BitVec 4 := r.header.extractLsb' 0 4

/-- What the decoder reads from a record: an instruction, `EMPTY`, or a record that no loader writes, rejected by
name: an unused tag 11..15 (R63, R71), or an operand absent where the class has one or present where it has none
(R63, R67). -/
inductive Decoded where
  | instr (i : Instr)
  | empty
  | reservedTag (tag : BitVec 4)
  | operandMissing (tag : BitVec 4)
  | operandUnexpected (tag : BitVec 4)
deriving DecidableEq, Repr

/-- A record of an operand class that has an operand (R63). -/
def decodeWith (tag : BitVec 4) (f : Text → Instr) : Option Text → Decoded
  | some t => .instr (f t)
  | none   => .operandMissing tag

/-- A record of XCH, ADD or HLT, which have none (R63, R67). -/
def decodeBare (tag : BitVec 4) (i : Instr) : Option Text → Decoded
  | some _ => .operandUnexpected tag
  | none   => .instr i

/-- The tag table of R63. -/
def decodeTag (tag : BitVec 4) (operand : Option Text) : Decoded :=
  match tag.toNat with
  | 0  => decodeWith tag .dec operand
  | 1  => decodeWith tag .lda operand
  | 2  => decodeWith tag .ldb operand
  | 3  => decodeWith tag .ldi operand
  | 4  => decodeWith tag .str operand
  | 5  => decodeBare tag .xch operand
  | 6  => decodeWith tag .jmp operand
  | 7  => decodeWith tag .jzs operand
  | 8  => decodeWith tag .jvs operand
  | 9  => decodeBare tag .add operand
  | 10 => decodeBare tag .hlt operand
  | _  => .reservedTag tag

/-- Decoding of one record, total; the tag means something only when the slot is present (R63). -/
def decode (r : Record) : Decoded :=
  if r.present then decodeTag r.tag r.operand else .empty

/-! ### The encoder -/

/-- The header `present ++ op` of each instruction (R63, the last column). -/
def Instr.header : Instr → BitVec 5
  | .dec _ => 0x10
  | .lda _ => 0x11
  | .ldb _ => 0x12
  | .ldi _ => 0x13
  | .str _ => 0x14
  | .xch   => 0x15
  | .jmp _ => 0x16
  | .jzs _ => 0x17
  | .jvs _ => 0x18
  | .add   => 0x19
  | .hlt   => 0x1A

/-- The operand field of each instruction's record (R63). -/
def Instr.operand : Instr → Option Text
  | .dec n => some n
  | .lda n => some n
  | .ldb n => some n
  | .ldi l => some l
  | .str n => some n
  | .xch   => none
  | .jmp t => some t
  | .jzs t => some t
  | .jvs t => some t
  | .add   => none
  | .hlt   => none

/-- The record of an instruction (R63). -/
def encode (i : Instr) : Record := ⟨i.header, i.operand⟩

/-! ### The text line -/

/-- The mnemonic of each instruction (R12, R61). -/
def Instr.mnemonic : Instr → Text
  | .dec _ => ['D', 'E', 'C']
  | .lda _ => ['L', 'D', 'A']
  | .ldb _ => ['L', 'D', 'B']
  | .ldi _ => ['L', 'D', 'I']
  | .str _ => ['S', 'T', 'R']
  | .xch   => ['X', 'C', 'H']
  | .jmp _ => ['J', 'M', 'P']
  | .jzs _ => ['J', 'Z', 'S']
  | .jvs _ => ['J', 'V', 'S']
  | .add   => ['A', 'D', 'D']
  | .hlt   => ['H', 'L', 'T']

/-- How the loader takes an operand from a line: one token (R64), the rest of the line (R65), or none (R67). -/
inductive OperandClass where
  | token
  | rest
  | none
deriving DecidableEq, Repr

/-- One row of the opcode list of R61 with its header and operand class (R63). -/
structure OpcodeRow where
  mnemonic : Text
  header   : BitVec 5
  operands : OperandClass
deriving DecidableEq, Repr

/-- The 11 recognised opcodes (R61, R63). -/
def opcodeRows : List OpcodeRow :=
  [ ⟨['D', 'E', 'C'], 0x10, .token⟩,
    ⟨['L', 'D', 'A'], 0x11, .token⟩,
    ⟨['L', 'D', 'B'], 0x12, .token⟩,
    ⟨['L', 'D', 'I'], 0x13, .token⟩,
    ⟨['S', 'T', 'R'], 0x14, .token⟩,
    ⟨['X', 'C', 'H'], 0x15, .none⟩,
    ⟨['J', 'M', 'P'], 0x16, .rest⟩,
    ⟨['J', 'Z', 'S'], 0x17, .rest⟩,
    ⟨['J', 'V', 'S'], 0x18, .rest⟩,
    ⟨['A', 'D', 'D'], 0x19, .none⟩,
    ⟨['H', 'L', 'T'], 0x1A, .none⟩ ]

/-- The opcode token: the line before its first space, or all of it (R62). -/
def opcodeToken (line : Text) : Text := line.takeWhile (· != ' ')

/-- What follows the opcode token, the separating space included (R65). -/
def afterOpcode (line : Text) : Text := line.dropWhile (· != ' ')

/-- The characters after the first space up to the next space or the end of the line (R64). -/
def firstToken (rest : Text) : Text := (rest.drop 1).takeWhile (· != ' ')

/-- The operand field the loader delivers for each class (R64, R65, R67). -/
def loadOperand (rest : Text) : OperandClass → Option Text
  | .token => some (firstToken rest)
  | .rest  => some rest
  | .none  => none

/-- The record the loader makes of one line; `EMPTY` where the token is not one of the 11 mnemonics, exactly and
case-sensitively (R62, R70). -/
def parseLine (line : Text) : Record :=
  match opcodeRows.find? (fun row => row.mnemonic == opcodeToken line) with
  | some row => ⟨row.header, loadOperand (afterOpcode line) row.operands⟩
  | none     => Record.empty

/-- One CR immediately before an LF goes with it (R75); `acc` is the line so far, its last character first. -/
def dropCr : Text → Text
  | []      => []
  | c :: cs => if c = '\r' then cs else c :: cs

/-- The lines of a text whose current line so far is `acc`, reversed (R75). -/
def splitLinesFrom : Text → Text → List Text
  | acc, []      => if acc.isEmpty then [] else [acc.reverse]
  | acc, c :: cs =>
    if c = '\n' then (dropCr acc).reverse :: splitLinesFrom [] cs else splitLinesFrom (c :: acc) cs

/-- The lines of a program file (R75). -/
def splitLines (file : Text) : List Text := splitLinesFrom [] file

/-- The text line of an instruction (R61, R64, R65, R67). -/
def renderLine (i : Instr) : Text :=
  match i with
  | .dec n => i.mnemonic ++ ' ' :: n
  | .lda n => i.mnemonic ++ ' ' :: n
  | .ldb n => i.mnemonic ++ ' ' :: n
  | .ldi l => i.mnemonic ++ ' ' :: l
  | .str n => i.mnemonic ++ ' ' :: n
  | .xch   => i.mnemonic
  | .jmp t => i.mnemonic ++ t
  | .jzs t => i.mnemonic ++ t
  | .jvs t => i.mnemonic ++ t
  | .add   => i.mnemonic
  | .hlt   => i.mnemonic

/-- A program file of the given lines, each ended by LF (R75, 92_eei_decisions.md D19). -/
def renderFile (lines : List Text) : Text := lines.flatMap (· ++ ['\n'])

/-! ### Table words -/

/-- The record of an opcode-table word: bits 4..0 are the header (mask 0x1F); the bits above belong to no field, and
the operand, to which the table gives no bits, is the empty string where the class has one (R63; log 8). -/
def recordOfWord (nbits w : Nat) : Record :=
  let header := BitVec.ofNat 5 (w % 2 ^ nbits)
  ⟨header, if header = 0x15 ∨ header = 0x19 ∨ header = 0x1A then none else some []⟩

/-- The instruction the decoder reads from an opcode-table word. -/
def decodeTableWord (nbits w : Nat) : Option Instr :=
  match decode (recordOfWord nbits w) with
  | .instr i => some i
  | _        => none

end Sys2Proof
end

