-- ==== Sys2Proof/Machine/State.lean ====
section
/-! DEFINITION. The state of the block as plain data (10_state.md R20-R38, 45_fetch_dispatch.md R166), the reasons a
step can stop, and the state right after reset (R38, R230). -/

namespace Sys2Proof.Machine

/-- The engine modes (R34, R150). -/
inductive Mode where
  | idle
  | stepping
  | running
  | halted
  | faulted
  | quit
deriving DecidableEq, Repr

/-- The host's commands `s`, `a` and `q` (R161, R166). -/
inductive Command where
  | step
  | run
  | quit
deriving DecidableEq, Repr

/-- The host's answer at a checkpoint, `Negative` or `Other` (R156, R161). -/
inductive Answer where
  | negative
  | other
deriving DecidableEq, Repr

/-- The fault kinds the block raises (R200). -/
inductive FaultKind where
  | undeclaredSymbol
  | malformedLiteral
  | outOfBounds
  | emptySlot
  | slotExhausted
deriving DecidableEq, Repr

/-- The recorded fault: its kind, the `pc` of the instruction or fetch, and the name or operand string, which
OutOfBounds and EmptySlot do not have (R34, R200, R202). -/
structure FaultRecord where
  kind : FaultKind
  pc   : Word
  info : Option Text
deriving DecidableEq, Repr

/-- One trace record (R165); `symbols` is the map of each bound name to its stored value. -/
structure TraceRecord where
  name    : Text
  operand : Option Text
  regA    : Word
  regB    : Word
  ovf     : Bool
  zf      : Bool
  symbols : List (Text × Word)
deriving DecidableEq, Repr

/-- The value store: the slots that hold a value other than 0, by rising slot index; an unlisted slot reads 0
(R30, R38; log 5). -/
abbrev Memory := List (Nat × Word)

/-- Program memory: the occupied slots by rising index; an unlisted slot is `EMPTY` (R33; log 7). -/
abbrev Program := List (Nat × Record)

/-- The symbol table: each bound name with its slot, by rising name (R31; log 20). -/
abbrev SymTab := List (Text × Slot)

/-- Everything the spec gives the machine. -/
structure State where
  /-- `A`, `registerA`, the accumulator (R20, R21) -/
  regA         : Word
  /-- `B`, `registerB` (R20) -/
  regB         : Word
  /-- the program counter, a signed slot index (R24) -/
  pc           : Word
  /-- the zero flag `ZF` (R26) -/
  zf           : Bool
  /-- the overflow flag `OF` (R26) -/
  ovf          : Bool
  /-- `valueStore` (R30) -/
  store        : Memory
  /-- `symbolTable`, `Sym` (R31) -/
  sym          : SymTab
  /-- `Prog` (R33) -/
  prog         : Program
  /-- `L`, the number of lines the loader read (R33, R68) -/
  progLen      : Nat
  /-- the engine's mode (R34, R150) -/
  mode         : Mode
  /-- instructions executed within the current run-to-halt invocation (R34, R209) -/
  runCount     : Nat
  /-- whether this invocation still pauses (R34) -/
  pauseEnabled : Bool
  /-- the recorded fault (R34, R202) -/
  fault        : Option FaultRecord
  /-- the checkpoint request, raised while the run is paused (R156, R166; log 12) -/
  checkpoint   : Bool
  /-- the commands the host has given and the engine has not yet taken, oldest first (R161; log 1) -/
  commands     : List Command
  /-- the answers the host has given and no checkpoint has yet taken, oldest first (R161; log 1) -/
  answers      : List Answer
  /-- the trace records emitted so far, newest first (R165, R166; log 11) -/
  trace        : List TraceRecord
  /-- the exit code, once the host has quit (R159; log 13) -/
  exitCode     : Option Nat
  /-- the implementation parameters, which no step writes (R6; log 4) -/
  params       : Params
deriving DecidableEq, Repr

/-- Why a step stops the machine for good. A fault of the program is none of these: its entry is a next state in mode
`faulted` (R203; log 15). -/
inductive Fault where
  /-- Raised by a step in mode `quit`: the host quit, and the block no longer exists (R150, R159). Safe: nothing is
  claimed of a block that is gone (log 3). -/
  | processEnded
deriving DecidableEq, Repr

/-- Why a step has no meaning. -/
inductive Refusal where
  /-- Raised by `exec` for an instruction that has no meaning yet. Safe. No arm raises it. -/
  | notModelled (mnemonic : String)
  /-- Raised by a fetch of a record with an unused tag 11..15, which the loader refuses (R71). Safe (log 6). -/
  | reservedTag (tag : BitVec 4)
  /-- Raised by a fetch of a record whose operand is absent where its class has one, or present where it has none,
  which no loader writes (R63, R67). Safe (log 6). -/
  | operandShape (tag : BitVec 4)
deriving DecidableEq, Repr

/-- Why the loader refuses an image (R69, R71). -/
inductive LoadRefusal where
  /-- More than 128 lines (R69). -/
  | tooManyLines
  /-- A record that no loader writes: an unused tag (R71) or an operand of the wrong shape (log 6). -/
  | illegalRecord
deriving DecidableEq, Repr

/-- What a load gives: a machine ready for commands, or a refusal (R161, R232). -/
inductive LoadResult where
  | ready (s : State)
  | refused (r : LoadRefusal)
deriving DecidableEq, Repr

/-- The machine right after reset (R38, R230). `Prog` and `L` are the loader's image and have no reset value; DESIGN
CHOICE (log 9): the image of an empty file. -/
def State.reset : State where
  regA         := 0
  regB         := 0
  pc           := 0
  zf           := false
  ovf          := false
  store        := []
  sym          := []
  prog         := []
  progLen      := 0
  mode         := .idle
  runCount     := 0
  pauseEnabled := true
  fault        := none
  checkpoint   := false
  commands     := []
  answers      := []
  trace        := []
  exitCode     := none
  params       := Params.standard

end Sys2Proof.Machine
end

