-- ==== Sys2Proof/Machine/Ops.lean ====
section
/-! DEFINITION. The named operations over registers, the value store, the symbol table, program memory, the engine and
the trace (R8, R9), and the one fault entry (R203). There is no return from a fault (R204). -/

namespace Sys2Proof.Machine

/-! ### Cells: a sparse memory in canonical form -/

/-- What index `k` reads; `dflt` is what an unlisted index reads as. -/
def cellGet {α : Type} (dflt : α) : List (Nat × α) → Nat → α
  | [], _ => dflt
  | (j, v) :: rest, k => if j = k then v else cellGet dflt rest k

/-- The cells with index `k` holding `v`; a value equal to `dflt` removes the entry. -/
def cellSet {α : Type} [DecidableEq α] (dflt : α) : List (Nat × α) → Nat → α → List (Nat × α)
  | [], k, v => if v = dflt then [] else [(k, v)]
  | (j, w) :: rest, k, v =>
    if k < j then (if v = dflt then (j, w) :: rest else (k, v) :: (j, w) :: rest)
    else if k = j then (if v = dflt then rest else (k, v) :: rest)
    else (j, w) :: cellSet dflt rest k v

/-- Canonical form: indices strictly rising from `lo`, below `bound`, and no entry equal to `dflt`. -/
def cellsWf {α : Type} [DecidableEq α] (dflt : α) (bound lo : Nat) : List (Nat × α) → Bool
  | [] => true
  | (j, v) :: rest => decide (lo ≤ j) && decide (j < bound) && decide (v ≠ dflt) && cellsWf dflt bound (j + 1) rest

/-! ### The value store -/

/-- What a value-store slot that no entry lists reads as (R38). -/
def storeDefault : Word := 0

/-- The value store is in canonical form (log 5). -/
def Memory.wf (m : Memory) : Bool := cellsWf storeDefault 128 0 m

/-- `MemRead(k, 1)` (R41). -/
def memRead (s : State) (k : Slot) : Word := cellGet storeDefault s.store k.val

/-- `MemWrite(k, 1, v)` (R41). -/
def memWrite (s : State) (k : Slot) (v : Word) : State :=
  { s with store := cellSet storeDefault s.store k.val v }

/-! ### Program memory -/

/-- `Prog[k]` (R33). -/
def progRead (s : State) (k : Nat) : Record := cellGet Record.empty s.prog k

/-- The cells of a record image whose first record is slot `k`; a slot without an instruction is not listed
(R33, R63, R68). -/
def imageCells (k : Nat) : List Record → Program
  | [] => []
  | r :: rest => if r.present then (k, r) :: imageCells (k + 1) rest else imageCells (k + 1) rest

/-- Program memory is in canonical form: occupied slots only, in [0, `len`), by rising index (R33; log 7). -/
def Program.wf (len : Nat) (p : Program) : Bool :=
  cellsWf Record.empty len 0 p && p.all (fun e => e.2.present)

/-! ### The symbol table -/

/-- The order of names that fixes the symbol table's canonical form (log 20); no rule depends on it. -/
def nameLt : Text → Text → Bool
  | _, [] => false
  | [], _ :: _ => true
  | a :: as, b :: bs => if a = b then nameLt as bs else decide (a.toNat < b.toNat)

/-- `Sym(n)`: the slot bound to `n`, or none (R8, R31). -/
def symGet : SymTab → Text → Option Slot
  | [], _ => none
  | (m, k) :: rest, n => if m = n then some k else symGet rest n

/-- `Sym(n) <- k`: adds `n`, or replaces its earlier binding (R100, R104). -/
def symSet : SymTab → Text → Slot → SymTab
  | [], n, k => [(n, k)]
  | (m, j) :: rest, n, k =>
    if m = n then (n, k) :: rest
    else if nameLt n m then (n, k) :: (m, j) :: rest
    else (m, j) :: symSet rest n k

/-- Names strictly rising: `n` stands before every name of the table. -/
def namesAbove (n : Text) : SymTab → Bool
  | [] => true
  | (m, _) :: rest => nameLt n m && namesAbove m rest

/-- The symbol table is in canonical form: names strictly rising, so each is bound once (R31; log 20). -/
def SymTab.wf : SymTab → Bool
  | [] => true
  | (m, _) :: rest => namesAbove m rest

/-- Some name is bound to slot `k`: `k ∈ range(Sym)` (R101). -/
def claimed (s : State) (k : Slot) : Bool := s.sym.any (fun e => e.2 == k)

/-- `Sym(n) <- k` in the machine (R100). -/
def bindSym (s : State) (n : Text) (k : Slot) : State := { s with sym := symSet s.sym n k }

/-- Slot `k` is vacant under the placement policy (R101, R102). -/
def vacant (s : State) (k : Slot) : Bool :=
  match s.params.decPolicy with
  | .programOccupancy => !(progRead s k.val).present && !claimed s k
  | .storeOccupancy   => !claimed s k

/-- `FreeSlot()`: the lowest vacant slot, or none (R101, R102). -/
def freeSlot (s : State) : Option Slot := (List.finRange 128).find? (vacant s)

/-! ### Registers and pc -/

/-- `x[A] <- v` (R8). -/
def setA (s : State) (v : Word) : State := { s with regA := v }

/-- `x[B] <- v` (R8). -/
def setB (s : State) (v : Word) : State := { s with regB := v }

/-- `pc <- target` (R8). -/
def setPc (s : State) (target : Word) : State := { s with pc := target }

/-- `pc <- pc + 1`. DEDUCED (log 16): a fetch succeeds only below 128, so this never wraps after one (R25). -/
def advance (s : State) : State := setPc s (s.pc + 1)

/-- The two flags (R27). -/
def setFlags (s : State) (zf ovf : Bool) : State := { s with zf := zf, ovf := ovf }

/-! ### Faults and the engine -/

/-- The fault codes of R200. -/
def FaultKind.code : FaultKind → Nat
  | .undeclaredSymbol => 1
  | .malformedLiteral => 2
  | .outOfBounds      => 3
  | .emptySlot        => 4
  | .slotExhausted    => 5

/-- `raise <Fault>(info)`: nothing of the instruction is written; `fault` records the kind, the `pc` and the operand,
and the engine enters `Faulted` (R9, R202, R203). -/
def raise (s : State) (kind : FaultKind) (info : Option Text) : State :=
  { s with mode := .faulted, fault := some ⟨kind, s.pc, info⟩ }

/-- `mode <- m` (R150). -/
def setMode (s : State) (m : Mode) : State := { s with mode := m }

/-! ### The trace and the host's side -/

/-- The trace record of `i` in the state it left (R165). -/
def traceRecord (i : Instr) (s : State) : TraceRecord where
  name    := i.mnemonic
  operand := i.operand
  regA    := s.regA
  regB    := s.regB
  ovf     := s.ovf
  zf      := s.zf
  symbols := s.sym.map fun e => (e.1, memRead s e.2)

/-- `EmitTrace(ins)` (R152, R165). -/
def emitTrace (s : State) (i : Instr) : State := { s with trace := traceRecord i s :: s.trace }

/-- The host gives a command (R161); the engine takes it when its mode accepts one (log 1). -/
def issue (s : State) (c : Command) : State := { s with commands := s.commands ++ [c] }

/-- The host gives a checkpoint answer (R161); the engine takes it when it is paused (log 1). -/
def giveAnswer (s : State) (a : Answer) : State := { s with answers := s.answers ++ [a] }

end Sys2Proof.Machine
end

