-- ==== Sys2Proof/Machine/Arith.lean ====
section
/-! DEFINITION. Arithmetic (44_arithmetic.md). -/

namespace Sys2Proof.Machine

/-- ADD (R140): `pc` advances on every branch. -/
def execAdd (s : State) : Host.Outcome State Fault Refusal :=
  let r := addUnit s.regA s.regB s.zf s.ovf
  .next (advance (setFlags (setA s r.regA) r.zf r.ovf))

end Sys2Proof.Machine
end

