-- ==== Sys2Proof/Machine/Operands.lean ====
section
/-! DEFINITION. The operand forms: the literal parser `ParseInt` (R66), the symbolic address `Resolve` (R110) and the
jump target `Target` (R130), with what an instruction does where the operand has no value. -/

namespace Sys2Proof.Machine

/-- The leading blanks that `ParseInt` skips: space and tab (R66). -/
def skipBlanks : Text → Text
  | [] => []
  | c :: cs => if c = ' ' ∨ c = '\t' then skipBlanks cs else c :: cs

/-- A decimal digit (R66). -/
def isDigit (c : Char) : Bool := decide ('0'.toNat ≤ c.toNat) && decide (c.toNat ≤ '9'.toNat)

/-- The value of a decimal digit (R66). -/
def digitVal (c : Char) : Nat := c.toNat - '0'.toNat

/-- The loop `v <- 10*v + digit` over a string of digits only; none at any other character (R66). -/
def digitsValue : Nat → Text → Option Nat
  | v, [] => some v
  | v, c :: cs => if isDigit c then digitsValue (10 * v + digitVal c) cs else none

/-- At least one digit and nothing else (R66). -/
def parseDigits : Text → Option Nat
  | [] => none
  | c :: cs => digitsValue 0 (c :: cs)

/-- The blanks, the sign and the digits of a literal (R66), before the range test. -/
def parseSigned (t : Text) : Option Int :=
  match skipBlanks t with
  | [] => none
  | c :: cs =>
    if c = '-' then (parseDigits cs).map fun n : Nat => -(n : Int)
    else (parseDigits (c :: cs)).map fun n : Nat => (n : Int)

/-- `ParseInt(s)` with its range test (R66); the result is `sext_64` of the literal's value (R113). -/
def parseInt (p : Params) (t : Text) : Option Word :=
  match parseSigned t with
  | none => none
  | some v => if v < p.litMin.toInt ∨ v > p.litMax.toInt then none else some (BitVec.ofInt 64 v)

/-- `Resolve(n)`: the slot of a name; none where `Resolve` raises UndeclaredSymbol (R110). -/
def resolve (s : State) (n : Text) : Option Slot :=
  match symGet s.sym n with
  | some k => some k
  | none =>
    match s.params.undeclared with
    | .fault       => none
    | .legacySlot0 => some 0

/-- Go on with `Resolve(n)`, or raise UndeclaredSymbol with nothing written (R110, R203). -/
def withSlot (s : State) (n : Text) (f : Slot → State) : State :=
  match resolve s n with
  | some k => f k
  | none   => raise s .undeclaredSymbol (some n)

/-- Go on with the literal's value, or raise MalformedLiteral with nothing written (R113, R130, R203). -/
def withLiteral (s : State) (t : Text) (f : Word → State) : State :=
  match parseInt s.params t with
  | some v => f v
  | none   => raise s .malformedLiteral (some t)

/-! ### Decimal text of a value, for writing operands -/

/-- The digits of `n` with the given fuel, most significant first. -/
def natDigits : Nat → Nat → Text
  | 0, _ => []
  | fuel + 1, n =>
    if n < 10 then [Char.ofNat ('0'.toNat + n)]
    else natDigits fuel (n / 10) ++ [Char.ofNat ('0'.toNat + n % 10)]

/-- The decimal literal of an integer, in the grammar of R66; 20 digits hold every 64-bit value. -/
def decimal (v : Int) : Text :=
  if v < 0 then '-' :: natDigits 20 v.natAbs else natDigits 20 v.natAbs

end Sys2Proof.Machine
end

