-- ==== Sys2Proof/Machine/Control.lean ====
section
/-! DEFINITION. Control transfer (43_control_transfer.md). JZS and JVS decode the target before they test the flag
(R130). -/

namespace Sys2Proof.Machine

/-- JMP (R132). -/
def execJmp (t : Text) (s : State) : Host.Outcome State Fault Refusal :=
  .next (withLiteral s t fun v => setPc s v)

/-- JZS (R133). -/
def execJzs (t : Text) (s : State) : Host.Outcome State Fault Refusal :=
  .next (withLiteral s t fun v => if s.zf then setPc s v else advance s)

/-- JVS (R134). -/
def execJvs (t : Text) (s : State) : Host.Outcome State Fault Refusal :=
  .next (withLiteral s t fun v => if s.ovf then setPc s v else advance s)

end Sys2Proof.Machine
end

