-- ==== Sys2Proof/Machine/Declare.lean ====
section
/-! DEFINITION. Symbol declaration (41_declare.md). -/

namespace Sys2Proof.Machine

/-- DEC (R100): binds `n` to the lowest vacant slot, or raises SlotExhausted; it writes no value-store slot. -/
def execDec (n : Text) (s : State) : Host.Outcome State Fault Refusal :=
  match freeSlot s with
  | some k => .next (advance (bindSym s n k))
  | none   => .next (raise s .slotExhausted (some n))

end Sys2Proof.Machine
end

