-- ==== Sys2Proof/Machine/Halt.lean ====
section
/-! DEFINITION. HLT (45_fetch_dispatch.md). -/

namespace Sys2Proof.Machine

/-- HLT (R153): only the engine's mode changes. -/
def execHlt (s : State) : Host.Outcome State Fault Refusal :=
  .next (setMode s .halted)

end Sys2Proof.Machine
end

