-- ==== Sys2Proof/Machine/LoadStore.lean ====
section
/-! DEFINITION. Loads, store and exchange (42_load_store.md). -/

namespace Sys2Proof.Machine

/-- LDA (R111). -/
def execLda (n : Text) (s : State) : Host.Outcome State Fault Refusal :=
  .next (withSlot s n fun k => advance (setA s (memRead s k)))

/-- LDB (R112). -/
def execLdb (n : Text) (s : State) : Host.Outcome State Fault Refusal :=
  .next (withSlot s n fun k => advance (setB s (memRead s k)))

/-- LDI (R113). -/
def execLdi (lit : Text) (s : State) : Host.Outcome State Fault Refusal :=
  .next (withLiteral s lit fun v => advance (setA s v))

/-- STR (R114). -/
def execStr (n : Text) (s : State) : Host.Outcome State Fault Refusal :=
  .next (withSlot s n fun k => advance (memWrite s k s.regA))

/-- XCH (R116). -/
def execXch (s : State) : Host.Outcome State Fault Refusal :=
  .next (advance (setB (setA s s.regB) s.regA))

end Sys2Proof.Machine
end

