-- ==== Sys2Proof/Machine/Dispatch.lean ====
section
/-! DEFINITION. The dispatch of R152: one arm per tag, no default arm. -/

namespace Sys2Proof.Machine

def exec (i : Instr) (s : State) : Host.Outcome State Fault Refusal :=
  match i with
  | .dec n => Sys2Proof.Machine.execDec n s
  | .lda n => Sys2Proof.Machine.execLda n s
  | .ldb n => Sys2Proof.Machine.execLdb n s
  | .ldi lit => Sys2Proof.Machine.execLdi lit s
  | .str n => Sys2Proof.Machine.execStr n s
  | .xch => Sys2Proof.Machine.execXch s
  | .jmp t => Sys2Proof.Machine.execJmp t s
  | .jzs t => Sys2Proof.Machine.execJzs t s
  | .jvs t => Sys2Proof.Machine.execJvs t s
  | .add => Sys2Proof.Machine.execAdd s
  | .hlt => Sys2Proof.Machine.execHlt s

end Sys2Proof.Machine
end

