-- ==== Sys2Proof/Machine/Engine.lean ====
section
/-! DEFINITION. The fetch-dispatch engine (45_fetch_dispatch.md): fetch, one instruction, the commands `s`, `a` and `q`,
run-to-halt with its checkpoint, and the waits for the host. -/

namespace Sys2Proof.Machine

/-- What a fetch gives: an instruction, a fault of the block (R151), or a record that no loader writes (R71). -/
inductive Fetched where
  | instr (i : Instr)
  | fault (kind : FaultKind)
  | refused (r : Refusal)
deriving DecidableEq, Repr

/-- A fetched record as the fetch sees it: a present record is decoded, an `EMPTY` one faults (R151, R71). -/
def fetchRecord (r : Record) : Fetched :=
  match decode r with
  | .instr i               => .instr i
  | .empty                 => .fault .emptySlot
  | .reservedTag t         => .refused (.reservedTag t)
  | .operandMissing t      => .refused (.operandShape t)
  | .operandUnexpected t   => .refused (.operandShape t)

/-- `pc` lies in the valid fetch range [0, `L`) (R151). -/
def pcInRange (s : State) : Bool := decide (0 ≤ s.pc.toInt) && decide (s.pc.toInt < (s.progLen : Int))

/-- `Fetch()` (R151): OutOfBounds is tested before EmptySlot (R205). -/
def fetch (s : State) : Fetched :=
  if pcInRange s then fetchRecord (progRead s s.pc.toNat) else .fault .outOfBounds

/-- What follows a dispatched instruction: its trace record, unless it raised a fault (R152, R203). -/
def afterExec (i : Instr) (t : State) : State :=
  if t.mode = .faulted then t else emitTrace t i

/-- `ExecOne()` (R152). -/
def execOne (s : State) : Host.Outcome State Fault Refusal :=
  match fetch s with
  | .fault kind => .next (raise s kind none)
  | .refused r  => .refused r
  | .instr i    =>
    match exec i s with
    | .next t    => .next (afterExec i t)
    | .fault r   => .fault r
    | .refused r => .refused r

/-- The end of `Step()`: the mode is `Stepping` unless the instruction halted or faulted (R154). -/
def settleStep (t : State) : State :=
  if t.mode = .halted ∨ t.mode = .faulted then t else setMode t .stepping

/-- `Step()` (R154). -/
def singleStep (s : State) : Host.Outcome State Fault Refusal :=
  match execOne s with
  | .next t    => .next (settleStep t)
  | .fault r   => .fault r
  | .refused r => .refused r

/-- The start of `Run()` (R155). -/
def startRun (s : State) : State :=
  { s with mode := .running, runCount := 0, pauseEnabled := true, checkpoint := false }

/-- The count of an executed instruction and the checkpoint test after it (R155, R156). -/
def countInstr (t : State) : State :=
  { t with
    runCount   := t.runCount + 1
    checkpoint := t.pauseEnabled && (t.runCount + 1) % Config.checkpointInterval == 0 }

/-- The rest of one pass of `Run()`'s loop: a HLT or a fault has ended the run, and is not counted (R155, R156). -/
def settleRun (t : State) : State :=
  if t.mode = .running then countInstr t else t

/-- One pass of `Run()`'s loop (R155). -/
def runIteration (s : State) : Host.Outcome State Fault Refusal :=
  match execOne s with
  | .next t    => .next (settleRun t)
  | .fault r   => .fault r
  | .refused r => .refused r

/-- The paused run takes the host's answer, or waits for one (R156, R162). -/
def takeAnswer (s : State) : State :=
  match s.answers with
  | []                => s
  | .negative :: rest => { s with answers := rest, checkpoint := false, mode := .idle }
  | .other :: rest    => { s with answers := rest, checkpoint := false, pauseEnabled := false }

/-- `q` (R159). -/
def quit (s : State) : State := { s with mode := .quit, exitCode := some 0 }

/-- The oldest command is taken. -/
def dropCommand (s : State) : State := { s with commands := s.commands.tail }

/-- In `Idle` and `Stepping`: wait for a command, or carry one out (R154, R155, R159, R160). -/
def readyStep (s : State) : Host.Outcome State Fault Refusal :=
  match s.commands with
  | []         => .next s
  | .step :: _ => singleStep (dropCommand s)
  | .run :: _  => .next (startRun (dropCommand s))
  | .quit :: _ => .next (quit (dropCommand s))

/-- In `Running`: one instruction, or the checkpoint (R155, R156). -/
def runningStep (s : State) : Host.Outcome State Fault Refusal :=
  if s.checkpoint then .next (takeAnswer s) else runIteration s

/-- In `Halted` and `Faulted`: `s` and `a` change nothing, and `q` quits (R157, R158, R159). -/
def endedStep (s : State) : Host.Outcome State Fault Refusal :=
  match s.commands with
  | []         => .next s
  | .step :: _ => .next (dropCommand s)
  | .run :: _  => .next (dropCommand s)
  | .quit :: _ => .next (quit (dropCommand s))

/-- One step of the block by its mode (R150). -/
def engineStep (s : State) : Host.Outcome State Fault Refusal :=
  match s.mode with
  | .idle     => readyStep s
  | .stepping => readyStep s
  | .running  => runningStep s
  | .halted   => endedStep s
  | .faulted  => endedStep s
  | .quit     => .fault .processEnded

/-! ### Placing an instruction where the next fetch finds it -/

/-- The program slot the next fetch reads; slot 0 where `pc` names no slot. -/
def fetchSlot (s : State) : Nat :=
  if 0 ≤ s.pc.toInt ∧ s.pc.toInt < (Config.progSlots : Int) then s.pc.toNat else 0

/-- `s` with record `r` in the slot the next fetch reads, and the fetch about to happen (log 9). -/
def placeRecord (s : State) (r : Record) : State :=
  let k := fetchSlot s
  let loaded : State :=
    { s with
      prog    := cellSet Record.empty s.prog k (if r.present then r else Record.empty)
      progLen := max s.progLen (k + 1)
      pc      := BitVec.ofNat 64 k }
  if s.mode = .running ∧ s.checkpoint = false then loaded
  else { loaded with mode := .idle, checkpoint := false, fault := none, exitCode := none, commands := .step :: s.commands }

end Sys2Proof.Machine
end

