-- ==== Sys2Proof/Machine/Step.lean ====
section
/-! DEFINITION. One step of the block, and an instruction placed where the next step fetches it. -/

namespace Sys2Proof.Machine

/-- One step: one `ExecOne`, the start of a run, a checkpoint answer, a quit, or a wait (R150, R166; log 10). -/
def step (s : State) : Host.Outcome State Fault Refusal := engineStep s

/-- `s` with the opcode-table word `w` as the record the next step fetches and runs (log 8, log 9). -/
def State.withFetchWord (s : State) (nbits w : Nat) : State := placeRecord s (recordOfWord nbits w)

end Sys2Proof.Machine
end

