-- ==== Sys2Proof/Machine/Loader.lean ====
section
/-! DEFINITION. The loader at its boundary (30_encoding.md R68-R71, 45_fetch_dispatch.md R161, 70_reset_and_hazards.md
R232): from a program text, or a record image, to the machine that waits for its first command. -/

namespace Sys2Proof.Machine

/-- A record the loader may leave in a slot: `EMPTY`, or one that decodes (R63, R71). -/
def loadable (r : Record) : Bool :=
  match decode r with
  | .instr _             => true
  | .empty               => true
  | .reservedTag _       => false
  | .operandMissing _    => false
  | .operandUnexpected _ => false

/-- The machine with the image in place: line `k` in slot `k`, `L` the number of lines, everything else at reset
(R68, R230). -/
def withImage (p : Params) (image : List Record) : State :=
  { State.reset with prog := imageCells 0 image, progLen := image.length, params := p }

/-- Loads a record image, or refuses it (R69, R71). -/
def loadImage (p : Params) (image : List Record) : LoadResult :=
  if image.length > Config.progSlots then .refused .tooManyLines
  else if image.all loadable then .ready (withImage p image)
  else .refused .illegalRecord

/-- Loads a program text (R161, R232). -/
def loadText (p : Params) (file : Text) : LoadResult :=
  loadImage p ((splitLines file).map parseLine)

end Sys2Proof.Machine
end

