-- ==== Sys2Proof/Safety.lean ====
section
/-! DEFINITION. The terms claims use: the launch premise, the ends of a run, the invariants of the machine's state, and
what "unchanged" means of two states. -/

namespace Sys2Proof.Machine

/-! ### Launch and end of a run -/

/-- `Prog` and `L` are a loader image: at most 128 lines, occupied slots only, each with a record that decodes
(R68, R71). -/
structure LoaderImage (s : State) : Prop where
  len_le   : s.progLen ≤ Config.progSlots
  wf       : Program.wf s.progLen s.prog = true
  loadable : ∀ e ∈ s.prog, loadable e.2 = true

/-- The launch premise `CleanLaunch` (R234): the state of R230 over a loader image. The host may have given any
commands and answers. -/
structure CleanLaunch (s : State) : Prop where
  image : LoaderImage s
  state : s = { State.reset with
    prog := s.prog, progLen := s.progLen, params := s.params, commands := s.commands, answers := s.answers }

/-- A run has ended (R163). -/
def RunEnded (s : State) : Prop := s.mode = .halted ∨ s.mode = .faulted ∨ s.mode = .quit

/-- The good end of a run (R163). -/
def GoodEnd (s : State) : Prop := s.mode = .halted

/-- A safe run so far: no fault has been raised (R163, R203). -/
def Unfaulted (s : State) : Prop := s.mode ≠ .faulted ∧ s.fault = none

/-! ### What the next step does -/

/-- The next step fetches: a single step has been commanded, or a run is not paused (R154, R155). -/
def Fetches (s : State) : Prop :=
  ((s.mode = .idle ∨ s.mode = .stepping) ∧ s.commands.head? = some .step) ∨
    (s.mode = .running ∧ s.checkpoint = false)

/-- The next step fetches and dispatches `i` (R151, R152). -/
def Executes (s : State) (i : Instr) : Prop :=
  Fetches s ∧ 0 ≤ s.pc.toInt ∧ s.pc.toInt < s.progLen ∧ decode (progRead s s.pc.toNat) = .instr i

/-! ### What two states share -/

/-- The architectural state is the same: the registers, the flags, `pc`, `valueStore` and `Sym` (R163, R203). -/
structure SameArch (s t : State) : Prop where
  regA  : t.regA = s.regA
  regB  : t.regB = s.regB
  pc    : t.pc = s.pc
  zf    : t.zf = s.zf
  ovf   : t.ovf = s.ovf
  store : t.store = s.store
  sym   : t.sym = s.sym

/-- What no instruction writes is the same: program memory, `L`, the run counter and its switch, the checkpoint
request, the host's inputs, the trace, the exit code and the parameters. -/
structure SameBackground (s t : State) : Prop where
  prog         : t.prog = s.prog
  progLen      : t.progLen = s.progLen
  runCount     : t.runCount = s.runCount
  pauseEnabled : t.pauseEnabled = s.pauseEnabled
  checkpoint   : t.checkpoint = s.checkpoint
  commands     : t.commands = s.commands
  answers      : t.answers = s.answers
  trace        : t.trace = s.trace
  exitCode     : t.exitCode = s.exitCode
  params       : t.params = s.params

/-- `t` is the fault entry of `s` (R202, R203). -/
def FaultEntry (s t : State) (kind : FaultKind) (info : Option Text) : Prop :=
  SameArch s t ∧ SameBackground s t ∧ t.mode = .faulted ∧ t.fault = some ⟨kind, s.pc, info⟩

/-- The instructions run one after another, each by `exec`; a stop ends the list. -/
def execAll : List Instr → State → Host.Outcome State Fault Refusal
  | [], s => .next s
  | i :: rest, s =>
    match exec i s with
    | .next t    => execAll rest t
    | .fault r   => .fault r
    | .refused r => .refused r

/-! ### Invariants -/

/-- No two names share a slot (R32, R105); that every slot lies in [0, 128) is `Slot`'s type. -/
def SlotsUnique (s : State) : Prop := (s.sym.map Prod.snd).Nodup

/-- Under `ProgramOccupancy` a bound slot is an `EMPTY` program position (R46, R101). -/
def BoundSlotsVacant (s : State) : Prop :=
  s.params.decPolicy = .programOccupancy → ∀ e ∈ s.sym, (progRead s e.2.val).present = false

/-- The memories are in canonical form, the program is a loader image, and the symbol table obeys R32 and R46. -/
structure DataInv (s : State) : Prop where
  store  : Memory.wf s.store = true
  sym    : SymTab.wf s.sym = true
  unique : SlotsUnique s
  vacant : BoundSlotsVacant s
  image  : LoaderImage s

/-- The engine's fields agree (R34, R156, R159, R202): a fault is recorded exactly in `Faulted`, or after a quit from
there; the checkpoint request stands only in a paused run, at `P_CHECKPOINT` counted instructions; a run that may
still pause has not reached them; and the exit code is 0 exactly after a quit. -/
structure EngineInv (s : State) : Prop where
  faulted  : s.mode = .faulted → s.fault.isSome = true
  recorded : s.fault.isSome = true → s.mode = .faulted ∨ s.mode = .quit
  paused   : s.checkpoint = true →
    s.mode = .running ∧ s.pauseEnabled = true ∧ s.runCount = Config.checkpointInterval
  counting : s.mode = .running → s.pauseEnabled = true → s.checkpoint = false →
    s.runCount < Config.checkpointInterval
  exited   : s.exitCode = if s.mode = .quit then some 0 else none

/-- `v` lies in [−2^31, 2^31−1] (R23). -/
def Fits32 (v : Word) : Prop := -2147483648 ≤ v.toInt ∧ v.toInt ≤ 2147483647

/-- The literal range is the default one (R6, R66). -/
def DefaultLiterals (s : State) : Prop :=
  s.params.litMin.toInt = -2147483648 ∧ s.params.litMax.toInt = 2147483647

/-- Every value in the registers and the value store fits 32 bits (R23). -/
def ValuesFit32 (s : State) : Prop := Fits32 s.regA ∧ Fits32 s.regB ∧ ∀ k, Fits32 (memRead s k)

end Sys2Proof.Machine
end

