-- ==== Sys2Proof/Certificates/Slice0/Obligations.lean ====
section
/-! DEFINITION. The statements for the provers, from the spec's numbered rules. -/

open Sys2Proof Sys2Proof.Machine

/-! ### Encoding -/

/-- R63: the record of every instruction is the only record that decodes to it, so each kind has one header and no
operand is dropped; a header without `present` is `EMPTY`, and tags 11 to 15 are unused. That a record with an operand
for XCH, ADD or HLT, or without one for another kind, decodes to no instruction is the model's choice, log 6. -/
def Obligations.RecordDecodesExactlyItsInstruction : Prop :=
  (∀ (r : Record) (i : Instr), decode r = .instr i ↔ r = encode i) ∧
  (∀ r : Record, decode r = .empty ↔ r.header.toNat < 16) ∧
  (∀ r : Record, 27 ≤ r.header.toNat → decode r = .reservedTag r.tag)

/-- R61, R64, R65, R67: the loader's record of an instruction's text line decodes to the instruction. -/
def Obligations.TextLineDecodesToItsInstruction : Prop :=
  ∀ i : Instr, i.wf = true → decode (parseLine (renderLine i)) = .instr i

/-- R64, R65 and R67: a token operand is what stands between the first space and the next one or the end of the line,
empty without a space; a jump operand is all that follows the opcode; XCH, ADD and HLT have none, whatever follows. -/
def Obligations.OperandsAreReadFromTheLine : Prop :=
  ∀ n junk : Text, ' ' ∉ n →
    (∀ i ∈ [Instr.dec n, .lda n, .ldb n, .str n, .ldi n],
      parseLine (i.mnemonic ++ ' ' :: n) = encode i ∧
      parseLine (i.mnemonic ++ ' ' :: (n ++ ' ' :: junk)) = encode i ∧
      (n = [] → parseLine i.mnemonic = encode i)) ∧
    (∀ rest, rest = [] ∨ rest = ' ' :: junk → ∀ i ∈ [Instr.jmp rest, .jzs rest, .jvs rest],
      parseLine (i.mnemonic ++ rest) = encode i) ∧
    (∀ i ∈ [Instr.xch, .add, .hlt],
      parseLine i.mnemonic = encode i ∧ parseLine (i.mnemonic ++ ' ' :: junk) = encode i)

/-- R62: the opcode token, the line before its first space, is recognised exactly where it is one of the 11 mnemonics;
any other line leaves its slot `EMPTY` (R70). -/
def Obligations.OnlyTheElevenMnemonicsAreRecognised : Prop :=
  ∀ line : Text,
    ((parseLine line).present = true ↔
      line.takeWhile (· != ' ') ∈
        [['D', 'E', 'C'], ['L', 'D', 'A'], ['L', 'D', 'B'], ['L', 'D', 'I'], ['S', 'T', 'R'], ['X', 'C', 'H'],
          ['J', 'M', 'P'], ['J', 'Z', 'S'], ['J', 'V', 'S'], ['A', 'D', 'D'], ['H', 'L', 'T']]) ∧
    ((parseLine line).present = false → parseLine line = Record.empty)

/-- R75: LF splits lines, one CR before an LF goes with it, a last line without LF counts, and a final LF starts no
further line. -/
def Obligations.LinesAreSplitAtLineFeeds : Prop :=
  ∀ lines : List Text, (∀ l ∈ lines, '\n' ∉ l) →
    splitLines (lines.flatMap (· ++ ['\r', '\n'])) = lines ∧
    ((∀ l ∈ lines, l.getLast? ≠ some '\r') → splitLines (renderFile lines) = lines) ∧
    (∀ last : Text, last ≠ [] → '\n' ∉ last → (∀ l ∈ lines, l.getLast? ≠ some '\r') →
      splitLines (renderFile lines ++ last) = lines ++ [last])

/-- R66: `ParseInt` accepts exactly blanks, an optional minus sign and one digit or more, with a value in the literal
range, and answers that value; and the default range. -/
def Obligations.ParseIntAcceptsExactlyTheGrammar : Prop :=
  (Params.standard.litMin.toInt = -2147483648 ∧ Params.standard.litMax.toInt = 2147483647) ∧
  ∀ (p : Params) (t : Text) (v : Word), parseInt p t = some v ↔
    ∃ (blanks digits : Text) (neg : Bool) (x : Int),
      t = blanks ++ (if neg then ['-'] else []) ++ digits ∧
      (∀ c ∈ blanks, c = ' ' ∨ c = '\t') ∧
      digits ≠ [] ∧ (∀ c ∈ digits, '0' ≤ c ∧ c ≤ '9') ∧
      x = (if neg then -1 else 1) * (digits.foldl (fun acc c => 10 * acc + ((c.toNat : Int) - 48)) 0) ∧
      p.litMin.toInt ≤ x ∧ x ≤ p.litMax.toInt ∧ v.toInt = x

/-- R66: the decimal text of any value in the literal range parses to that value, after any number of blanks. -/
def Obligations.DecimalTextParsesToItsValue : Prop :=
  ∀ (p : Params) (v : Word) (blanks : Text), (∀ c ∈ blanks, c = ' ' ∨ c = '\t') →
    p.litMin.toInt ≤ v.toInt → v.toInt ≤ p.litMax.toInt →
    parseInt p (blanks ++ decimal v.toInt) = some v

/-- R63: the header words of the opcode table decode to their instructions; an unused tag and an absent header do not;
and no bit of a word above the header changes what it decodes to (operand and padding are the model's choice, log 8). -/
def Obligations.HeaderWordsDecode : Prop :=
  decodeTableWord 8 0b10000 = some (.dec []) ∧ decodeTableWord 8 0b10001 = some (.lda []) ∧
  decodeTableWord 8 0b10010 = some (.ldb []) ∧ decodeTableWord 8 0b10011 = some (.ldi []) ∧
  decodeTableWord 8 0b10100 = some (.str []) ∧ decodeTableWord 8 0b10101 = some .xch ∧
  decodeTableWord 8 0b10110 = some (.jmp []) ∧ decodeTableWord 8 0b10111 = some (.jzs []) ∧
  decodeTableWord 8 0b11000 = some (.jvs []) ∧ decodeTableWord 8 0b11001 = some .add ∧
  decodeTableWord 8 0b11010 = some .hlt ∧
  (∀ w < 16, decodeTableWord 8 w = none) ∧ (∀ w < 32, 27 ≤ w → decodeTableWord 8 w = none) ∧
  decodeTableWord 8 0b11110101 = some .xch ∧ decodeTableWord 8 0b11101111 = none ∧
  (∀ w, decodeTableWord 8 w = decodeTableWord 8 (w % 32))

/-! ### Loading -/

/-- R68 and R69: line `k` goes to slot `k`, `L` is the number of lines, the rest is the reset state, and more than 128
lines are refused. No text is refused for another reason (R71). -/
def Obligations.LoaderPlacesEveryLine : Prop :=
  ∀ (p : Params) (file : Text),
    ((splitLines file).length ≤ 128 → ∃ s, loadText p file = .ready s ∧ s.progLen = (splitLines file).length ∧
      s = { State.reset with prog := s.prog, progLen := s.progLen, params := p } ∧
      ∀ k, progRead s k = match (splitLines file)[k]? with
        | some line => parseLine line
        | none      => Record.empty) ∧
    (128 < (splitLines file).length → loadText p file = .refused .tooManyLines)

/-- R71: a record image with an unused tag is refused at load, and so is one with an operand of the wrong shape
(log 6); nothing else is refused below 129 lines. -/
def Obligations.LoaderRefusesRecordsNoLoaderWrites : Prop :=
  ∀ (p : Params) (image : List Record), image.length ≤ 128 →
    ((∃ s, loadImage p image = .ready s) ↔
      ∀ r ∈ image, r.present = false ∨ ∃ i, decode r = .instr i) ∧
    (∀ r ∈ image, r.present = true → 11 ≤ r.tag.toNat → loadImage p image = .refused .illegalRecord)

/-- R61 to R75: the text of a program of at most 128 instructions loads, and the fetch of slot `k` decodes to its
instruction `k`. -/
def Obligations.RenderedProgramLoadsAndDecodes : Prop :=
  ∀ (p : Params) (is : List Instr), is.length ≤ 128 → (∀ i ∈ is, i.wf = true) →
    (∀ i ∈ is, (renderLine i).getLast? ≠ some '\r') →
    ∃ s, loadText p (renderFile (is.map renderLine)) = .ready s ∧ s.progLen = is.length ∧
      ∀ (k : Nat) (i : Instr), is[k]? = some i → decode (progRead s k) = .instr i

/-- R38: the reset value of every piece of state, in the reset state and after every load; program memory and `L` are
the loader's image. -/
def Obligations.ResetValuesOfEveryField : Prop :=
  (∀ s : State, (s = State.reset ∨ ∃ p image, loadImage p image = .ready s) →
    s.regA = 0 ∧ s.regB = 0 ∧ s.pc = 0 ∧ s.zf = false ∧ s.ovf = false ∧ (∀ k, memRead s k = 0) ∧
    (∀ n, symGet s.sym n = none) ∧ s.mode = .idle ∧ s.runCount = 0 ∧ s.pauseEnabled = true ∧ s.fault = none) ∧
  (∀ (p : Params) (image : List Record) (s : State), loadImage p image = .ready s →
    s.progLen = image.length ∧ ∀ k, progRead s k = match image[k]? with
      | some r => if r.present then r else Record.empty
      | none   => Record.empty)

/-- The reset state (with the empty image of log 9) is a clean launch and meets every invariant. -/
def Obligations.ResetMeetsTheInvariants : Prop :=
  CleanLaunch State.reset ∧ DataInv State.reset ∧ EngineInv State.reset ∧ DefaultLiterals State.reset ∧
  ValuesFit32 State.reset

/-- R234: a text that loads gives a clean launch, and every clean launch meets the invariants. -/
def Obligations.LaunchMeetsTheInvariants : Prop :=
  (∀ (p : Params) (file : Text) (s : State), loadText p file = .ready s → CleanLaunch s) ∧
  (∀ s : State, CleanLaunch s → DataInv s ∧ EngineInv s ∧ ValuesFit32 s)

/-! ### Declaration -/

/-- R101 and R102: `FreeSlot()` is the lowest slot that the placement policy counts as vacant, or none. -/
def Obligations.FreeSlotIsTheLowestVacantSlot : Prop :=
  ∀ s : State,
    (s.params.decPolicy = .programOccupancy →
      (∀ k, freeSlot s = some k ↔
        ((progRead s k.val).present = false ∧ ∀ e ∈ s.sym, e.2 ≠ k) ∧
        ∀ j, j < k → (progRead s j.val).present = true ∨ ∃ e ∈ s.sym, e.2 = j) ∧
      (freeSlot s = none ↔ ∀ k : Slot, (progRead s k.val).present = true ∨ ∃ e ∈ s.sym, e.2 = k)) ∧
    (s.params.decPolicy = .storeOccupancy →
      (∀ k, freeSlot s = some k ↔ (∀ e ∈ s.sym, e.2 ≠ k) ∧ ∀ j, j < k → ∃ e ∈ s.sym, e.2 = j) ∧
      (freeSlot s = none ↔ ∀ k : Slot, ∃ e ∈ s.sym, e.2 = k))

/-- R100: DEC binds the name to the free slot and advances, and writes nothing else; with no free slot it raises
SlotExhausted. -/
def Obligations.DecBindsTheFreeSlot : Prop :=
  ∀ (n : Text) (s : State),
    decode ⟨0x10, some n⟩ = .instr (.dec n) ∧
    (∀ k, freeSlot s = some k → ∃ t, exec (.dec n) s = .next t ∧
      t = { s with sym := t.sym, pc := s.pc + 1 } ∧
      symGet t.sym n = some k ∧ (∀ m, m ≠ n → symGet t.sym m = symGet s.sym m) ∧
      ∀ j, memRead t j = memRead s j) ∧
    (freeSlot s = none → ∃ t, exec (.dec n) s = .next t ∧ FaultEntry s t .slotExhausted (some n))

/-- R104: a re-declared name always gets a different slot, its old slot is free of names, and every slot keeps its
value. -/
def Obligations.RedeclarationMovesTheName : Prop :=
  ∀ (s t : State) (n : Text) (k : Slot), DataInv s → s.mode ≠ .faulted → symGet s.sym n = some k →
    exec (.dec n) s = .next t → t.mode ≠ .faulted →
    (∃ j, symGet t.sym n = some j ∧ j ≠ k) ∧ (∀ e ∈ t.sym, e.2 ≠ k) ∧ ∀ j, memRead t j = memRead s j

/-- R103: the re-declaration of a bound name faults too when no other slot is vacant. -/
def Obligations.RedeclarationNeedsASecondSlot : Prop :=
  ∀ (s : State) (n : Text) (k : Slot), s.params.decPolicy = .programOccupancy → symGet s.sym n = some k →
    (∀ j : Slot, j ≠ k → (progRead s j.val).present = true ∨ ∃ e ∈ s.sym, e.2 = j) →
    ∃ t, exec (.dec n) s = .next t ∧ FaultEntry s t .slotExhausted (some n)

/-- R103: the bound names and the occupied program slots together are at most 128 under `ProgramOccupancy`, and the
bound names alone always are. -/
def Obligations.BoundNamesAreLimited : Prop :=
  ∀ s : State, DataInv s → s.sym.length ≤ 128 ∧
    (s.params.decPolicy = .programOccupancy → s.sym.length + s.prog.length ≤ 128)

/-- R105: after any sequence of DECs no two names share a slot. -/
def Obligations.DeclarationsKeepSlotsUnique : Prop :=
  ∀ (names : List Text) (s t : State), SlotsUnique s → execAll (names.map Instr.dec) s = .next t →
    SlotsUnique t ∧ ∀ m n k, symGet t.sym m = some k → symGet t.sym n = some k → m = n

/-! ### Loads, store and exchange -/

/-- R110: `Resolve(n)`, under both settings of `P_UNDECLARED`. -/
def Obligations.ResolveFollowsTheSymbolTable : Prop :=
  ∀ (s : State) (n : Text),
    (∀ k, symGet s.sym n = some k → resolve s n = some k) ∧
    (symGet s.sym n = none → s.params.undeclared = .fault → resolve s n = none ∧
      ∀ i ∈ [Instr.lda n, .ldb n, .str n], ∃ t, exec i s = .next t ∧ FaultEntry s t .undeclaredSymbol (some n)) ∧
    (symGet s.sym n = none → s.params.undeclared = .legacySlot0 → resolve s n = some 0 ∧
      ∀ i ∈ [Instr.lda n, .ldb n, .str n], ∃ t, exec i s = .next t ∧ t.mode = s.mode ∧ t.sym = s.sym)

/-- R111: LDA. -/
def Obligations.LdaCopiesTheSlotIntoA : Prop :=
  ∀ (n : Text) (s : State),
    decode ⟨0x11, some n⟩ = .instr (.lda n) ∧
    (∀ k, resolve s n = some k → exec (.lda n) s = .next { s with regA := memRead s k, pc := s.pc + 1 }) ∧
    (resolve s n = none → ∃ t, exec (.lda n) s = .next t ∧ FaultEntry s t .undeclaredSymbol (some n))

/-- R112: LDB. -/
def Obligations.LdbCopiesTheSlotIntoB : Prop :=
  ∀ (n : Text) (s : State),
    decode ⟨0x12, some n⟩ = .instr (.ldb n) ∧
    (∀ k, resolve s n = some k → exec (.ldb n) s = .next { s with regB := memRead s k, pc := s.pc + 1 }) ∧
    (resolve s n = none → ∃ t, exec (.ldb n) s = .next t ∧ FaultEntry s t .undeclaredSymbol (some n))

/-- R113: LDI; the register holds the literal's value. -/
def Obligations.LdiLoadsTheLiteral : Prop :=
  ∀ (lit : Text) (s : State),
    decode ⟨0x13, some lit⟩ = .instr (.ldi lit) ∧
    (∀ v, parseInt s.params lit = some v → exec (.ldi lit) s = .next { s with regA := v, pc := s.pc + 1 }) ∧
    (parseInt s.params lit = none →
      ∃ t, exec (.ldi lit) s = .next t ∧ FaultEntry s t .malformedLiteral (some lit))

/-- R114: STR writes `A` to the resolved slot and to no other. -/
def Obligations.StrWritesAToTheSlot : Prop :=
  ∀ (n : Text) (s : State),
    decode ⟨0x14, some n⟩ = .instr (.str n) ∧
    (∀ k, resolve s n = some k → ∃ t, exec (.str n) s = .next t ∧
      t = { s with store := t.store, pc := s.pc + 1 } ∧
      (Memory.wf s.store = true → memRead t k = s.regA ∧ Memory.wf t.store = true) ∧
      ∀ j, j ≠ k → memRead t j = memRead s j) ∧
    (resolve s n = none → ∃ t, exec (.str n) s = .next t ∧ FaultEntry s t .undeclaredSymbol (some n))

/-- R115: between a STR of a declared name and a LDA of it, any instructions but a DEC or STR of that name may run; LDA
restores the stored value. (Under `LegacySlot0` a STR of an undeclared name writes slot 0, so the name's slot is then
not slot 0.) -/
def Obligations.StoreThenLoadReturnsTheValue : Prop :=
  ∀ (s t : State) (n : Text) (k : Slot) (is : List Instr), DataInv s → symGet s.sym n = some k →
    (s.params.undeclared = .fault ∨ k ≠ 0) → (∀ i ∈ is, i ≠ .dec n ∧ i ≠ .str n) →
    execAll (.str n :: is) s = .next t →
    exec (.lda n) t = .next { t with regA := s.regA, pc := t.pc + 1 }

/-- R116: XCH swaps the registers, and a second one swaps them back. -/
def Obligations.XchSwapsAndIsAnInvolution : Prop :=
  decode ⟨0x15, none⟩ = .instr .xch ∧
  ∀ s : State, exec .xch s = .next { s with regA := s.regB, regB := s.regA, pc := s.pc + 1 } ∧
    execAll [.xch, .xch] s = .next { s with pc := s.pc + 2 }

/-! ### Control transfer -/

/-- R130, R131 and R132: JMP writes any decoded target to `pc`, with no bounds check. -/
def Obligations.JmpWritesTheTarget : Prop :=
  ∀ (tgt : Text) (s : State),
    decode ⟨0x16, some tgt⟩ = .instr (.jmp tgt) ∧
    (∀ v, parseInt s.params tgt = some v → exec (.jmp tgt) s = .next { s with pc := v }) ∧
    (parseInt s.params tgt = none →
      ∃ t, exec (.jmp tgt) s = .next t ∧ FaultEntry s t .malformedLiteral (some tgt))

/-- R133: JZS jumps exactly where `ZF` is 1; a malformed target faults, taken or not. -/
def Obligations.JzsJumpsOnZero : Prop :=
  ∀ (tgt : Text) (s : State),
    decode ⟨0x17, some tgt⟩ = .instr (.jzs tgt) ∧
    (∀ v, parseInt s.params tgt = some v →
      (s.zf = true → exec (.jzs tgt) s = .next { s with pc := v }) ∧
      (s.zf = false → exec (.jzs tgt) s = .next { s with pc := s.pc + 1 })) ∧
    (parseInt s.params tgt = none →
      ∃ t, exec (.jzs tgt) s = .next t ∧ FaultEntry s t .malformedLiteral (some tgt))

/-- R134: JVS jumps exactly where `OF` is 1; a malformed target faults, taken or not. -/
def Obligations.JvsJumpsOnOverflow : Prop :=
  ∀ (tgt : Text) (s : State),
    decode ⟨0x18, some tgt⟩ = .instr (.jvs tgt) ∧
    (∀ v, parseInt s.params tgt = some v →
      (s.ovf = true → exec (.jvs tgt) s = .next { s with pc := v }) ∧
      (s.ovf = false → exec (.jvs tgt) s = .next { s with pc := s.pc + 1 })) ∧
    (parseInt s.params tgt = none →
      ∃ t, exec (.jvs tgt) s = .next t ∧ FaultEntry s t .malformedLiteral (some tgt))

/-! ### Arithmetic -/

/-- R140 and R141: ADD's four branches on the exact sum. -/
def Obligations.AddTakesFourBranches : Prop :=
  decode ⟨0x19, none⟩ = .instr .add ∧
  ∀ (s : State) (r : Int), r = s.regA.toInt + s.regB.toInt →
    (r ≤ -2147483648 → exec .add s = .next { s with ovf := true, pc := s.pc + 1 }) ∧
    (2147483647 ≤ r → exec .add s = .next { s with ovf := true, pc := s.pc + 1 }) ∧
    (r = 0 → exec .add s = .next { s with regA := 0, zf := true, pc := s.pc + 1 }) ∧
    (-2147483648 < r → r < 2147483647 → r ≠ 0 → ∃ t, exec .add s = .next t ∧
      t = { s with regA := t.regA, zf := false, ovf := false, pc := s.pc + 1 } ∧ t.regA.toInt = r)

/-- R142: ADD at the boundary sums, at 0, 1 and −1, and the two flags never freshly set by one ADD. -/
def Obligations.AddAtTheBoundaries : Prop :=
  ∀ s t : State, exec .add s = .next t →
    (s.regA.toInt + s.regB.toInt = 2147483646 → t.regA.toInt = 2147483646 ∧ t.zf = false ∧ t.ovf = false) ∧
    (s.regA.toInt + s.regB.toInt = 2147483647 → t.regA = s.regA ∧ t.zf = s.zf ∧ t.ovf = true) ∧
    (s.regA.toInt + s.regB.toInt = -2147483647 → t.regA.toInt = -2147483647 ∧ t.zf = false ∧ t.ovf = false) ∧
    (s.regA.toInt + s.regB.toInt = -2147483648 → t.regA = s.regA ∧ t.zf = s.zf ∧ t.ovf = true) ∧
    (s.regA.toInt + s.regB.toInt = 0 → t.regA = 0 ∧ t.zf = true ∧ t.ovf = s.ovf) ∧
    (s.regA.toInt + s.regB.toInt = 1 → t.regA.toInt = 1 ∧ t.zf = false ∧ t.ovf = false) ∧
    (s.regA.toInt + s.regB.toInt = -1 → t.regA.toInt = -1 ∧ t.zf = false ∧ t.ovf = false) ∧
    (s.zf = false → s.ovf = false → ¬(t.zf = true ∧ t.ovf = true))

/-! ### Frames and access tables -/

/-- R22, R27, R45: the loads, XCH and ADD leave the value store, the symbol table and everything of the engine as they
were, and write no register or flag but their own. -/
def Obligations.RegisterInstructionsFrame : Prop :=
  ∀ (s t : State) (x : Text) (i : Instr), i ∈ [Instr.lda x, .ldb x, .ldi x, .xch, .add] →
    exec i s = .next t →
    (∀ k, memRead t k = memRead s k) ∧ t.sym = s.sym ∧ SameBackground s t ∧
    (i ≠ .ldb x → i ≠ .xch → t.regB = s.regB) ∧ (i = .ldb x → t.regA = s.regA) ∧
    (i ≠ .add → t.zf = s.zf ∧ t.ovf = s.ovf)

/-- R22, R27, R45: STR leaves every slot but the resolved one, and every register, flag and binding, as it was; where
the name does not resolve, every slot. -/
def Obligations.StoreFrame : Prop :=
  ∀ (s t : State) (n : Text), exec (.str n) s = .next t →
    (∀ k, resolve s n = some k → ∀ j, j ≠ k → memRead t j = memRead s j) ∧
    (resolve s n = none → ∀ j, memRead t j = memRead s j) ∧
    t.regA = s.regA ∧ t.regB = s.regB ∧ t.zf = s.zf ∧ t.ovf = s.ovf ∧ t.sym = s.sym ∧ SameBackground s t

/-- R22, R27, R45, R100: DEC, the jumps and HLT write no register, flag or slot, and only DEC writes a binding. -/
def Obligations.ControlInstructionsFrame : Prop :=
  ∀ (s t : State) (x : Text) (i : Instr), i ∈ [Instr.dec x, .jmp x, .jzs x, .jvs x, .hlt] →
    exec i s = .next t →
    t.regA = s.regA ∧ t.regB = s.regB ∧ t.zf = s.zf ∧ t.ovf = s.ovf ∧ (∀ k, memRead t k = memRead s k) ∧
    SameBackground s t ∧ (i ≠ .dec x → t.sym = s.sym) ∧ (∀ m, m ≠ x → symGet t.sym m = symGet s.sym m)

/-- R25: `pc` after each instruction; from a fetched `pc`, `pc + 1` does not wrap. -/
def Obligations.PcAfterEachInstruction : Prop :=
  (∀ (i : Instr) (s t : State), exec i s = .next t →
    (t.pc = s.pc ∧ ∃ kind info, FaultEntry s t kind info) ∨
    (match i with
      | .dec _ => t.pc = s.pc + 1
      | .lda _ => t.pc = s.pc + 1
      | .ldb _ => t.pc = s.pc + 1
      | .ldi _ => t.pc = s.pc + 1
      | .str _ => t.pc = s.pc + 1
      | .xch   => t.pc = s.pc + 1
      | .jmp l => parseInt s.params l = some t.pc
      | .jzs l => if s.zf then parseInt s.params l = some t.pc else t.pc = s.pc + 1
      | .jvs l => if s.ovf then parseInt s.params l = some t.pc else t.pc = s.pc + 1
      | .add   => t.pc = s.pc + 1
      | .hlt   => t.pc = s.pc)) ∧
  (∀ s : State, 0 ≤ s.pc.toInt → s.pc.toInt < s.progLen → s.progLen ≤ 128 →
    (s.pc + 1).toInt = s.pc.toInt + 1)

/-- R27: only ADD writes a flag; only JZS depends on `ZF` and only JVS on `OF`: for every other instruction, another
value of the flag before changes nothing but that flag after. -/
def Obligations.FlagAccessTable : Prop :=
  (∀ (i : Instr) (s t : State), i ≠ .add → exec i s = .next t → t.zf = s.zf ∧ t.ovf = s.ovf) ∧
  (∀ (i : Instr) (s t : State) (b : Bool), (∀ l, i ≠ .jzs l) → exec i s = .next t →
    ∃ z, exec i { s with zf := b } = .next { t with zf := z }) ∧
  (∀ (i : Instr) (s t : State) (b : Bool), (∀ l, i ≠ .jvs l) → exec i s = .next t →
    ∃ o, exec i { s with ovf := b } = .next { t with ovf := o })

/-- R22: which instructions write `A` and `B`, and which depend on them: for every other instruction, another value of
the register before changes nothing but that register after. -/
def Obligations.RegisterAccessTable : Prop :=
  (∀ (i : Instr) (s t : State), exec i s = .next t →
    (t.regA = s.regA ∨ (∃ n, i = .lda n) ∨ (∃ l, i = .ldi l) ∨ i = .xch ∨ i = .add) ∧
    (t.regB = s.regB ∨ (∃ n, i = .ldb n) ∨ i = .xch)) ∧
  (∀ (i : Instr) (s t : State) (v : Word), (∀ n, i ≠ .str n) → i ≠ .xch → i ≠ .add → exec i s = .next t →
    ∃ w, exec i { s with regA := v } = .next { t with regA := w }) ∧
  (∀ (i : Instr) (s t : State) (v : Word), i ≠ .xch → i ≠ .add → exec i s = .next t →
    ∃ w, exec i { s with regB := v } = .next { t with regB := w })

/-! ### HLT, fetch and dispatch -/

/-- R153: HLT changes only the engine's mode. -/
def Obligations.HltOnlyHalts : Prop :=
  decode ⟨0x1A, none⟩ = .instr .hlt ∧ ∀ s : State, exec .hlt s = .next { s with mode := .halted }

/-- R208 and R153: HLT is the only instruction that affects the engine. It writes the mode and nothing else of it; every
other instruction keeps the mode, the fault record and the rest of the engine's fields, or takes its fault (R203). -/
def Obligations.OnlyHltHaltsTheEngine : Prop :=
  ∀ (i : Instr) (s t : State), exec i s = .next t →
    SameBackground s t ∧
    ((i = .hlt ∧ t.mode = .halted ∧ t.fault = s.fault) ∨
      (i ≠ .hlt ∧ ((t.mode = s.mode ∧ t.fault = s.fault) ∨ ∃ kind, FaultEntry s t kind i.operand)))

/-- R152, R154, R155: where the record at `pc` decodes to `i`, a step runs `exec i`, with the trace record and the mode
or count that the engine adds (the commands' queue is the model's choice, log 1, and so is the record's place at the
head of the trace, log 11). -/
def Obligations.StepRunsTheDecodedInstruction : Prop :=
  ∀ (s : State) (i : Instr), 0 ≤ s.pc.toInt → s.pc.toInt < s.progLen →
    decode (progRead s s.pc.toNat) = .instr i →
    (∀ (rest : List Command) (t : State), s.mode = .idle ∨ s.mode = .stepping → s.commands = .step :: rest →
      exec i { s with commands := rest } = .next t →
      step s = .next
        (if t.mode = .faulted then t
         else if t.mode = .halted then { t with trace := traceRecord i t :: t.trace }
         else { t with trace := traceRecord i t :: t.trace, mode := .stepping })) ∧
    (∀ t : State, s.mode = .running → s.checkpoint = false → exec i s = .next t →
      step s = .next
        (if t.mode = .faulted then t
         else if t.mode = .halted then { t with trace := traceRecord i t :: t.trace }
         else { t with
          trace := traceRecord i t :: t.trace, runCount := t.runCount + 1,
          checkpoint := t.pauseEnabled && decide ((t.runCount + 1) % 1000 = 0) }))

/-- R151 and R205: a step that fetches raises OutOfBounds where `pc` is outside [0, `L`), whatever the slot holds, and
EmptySlot where the slot in range is `EMPTY`. -/
def Obligations.FetchRaisesOutOfBoundsThenEmptySlot : Prop :=
  ∀ s : State, Fetches s →
    (s.pc.toInt < 0 ∨ s.progLen ≤ s.pc.toInt →
      ∃ t, step s = .next t ∧ SameArch s t ∧ t.mode = .faulted ∧ t.fault = some ⟨.outOfBounds, s.pc, none⟩ ∧
        t.trace = s.trace ∧ t.runCount = s.runCount) ∧
    (0 ≤ s.pc.toInt → s.pc.toInt < s.progLen → (progRead s s.pc.toNat).present = false →
      ∃ t, step s = .next t ∧ SameArch s t ∧ t.mode = .faulted ∧ t.fault = some ⟨.emptySlot, s.pc, none⟩ ∧
        t.trace = s.trace ∧ t.runCount = s.runCount)

/-- R200, R202, R203 and R205: a fault of an instruction writes nothing, records its kind, `pc` and operand, and is the
one fault that instruction can raise. -/
def Obligations.FaultingInstructionWritesNothing : Prop :=
  ∀ (i : Instr) (s t : State), s.mode ≠ .faulted → exec i s = .next t → t.mode = .faulted →
    ∃ kind, FaultEntry s t kind i.operand ∧
      match i with
      | .dec _ => kind = .slotExhausted
      | .lda _ => kind = .undeclaredSymbol
      | .ldb _ => kind = .undeclaredSymbol
      | .ldi _ => kind = .malformedLiteral
      | .str _ => kind = .undeclaredSymbol
      | .jmp _ => kind = .malformedLiteral
      | .jzs _ => kind = .malformedLiteral
      | .jvs _ => kind = .malformedLiteral
      | .xch   => False
      | .add   => False
      | .hlt   => False

/-- R203: a step that enters `Faulted` leaves the architectural state, the trace and the counters as they were. -/
def Obligations.FaultsArePrecise : Prop :=
  ∀ s t : State, step s = .next t → s.mode ≠ .faulted → t.mode = .faulted →
    SameArch s t ∧ t.trace = s.trace ∧ t.runCount = s.runCount ∧ t.prog = s.prog ∧ t.progLen = s.progLen ∧
      ∃ kind info, t.fault = some ⟨kind, s.pc, info⟩

/-- R165: every step that completes an instruction emits one trace record, which holds the registers, the flags and the
values of the bound names after it; a step that faults or executes nothing emits none. That the record stands at the
head of the trace, and the order of its symbols, which R165 leaves open, are the model's choice, log 11. -/
def Obligations.TraceRecordsEveryCompletedInstruction : Prop :=
  ∀ s t : State, step s = .next t →
    (∀ i, Executes s i → t.mode ≠ .faulted → ∃ rec, t.trace = rec :: s.trace ∧
      rec.name = i.mnemonic ∧ rec.operand = i.operand ∧ rec.regA = t.regA ∧ rec.regB = t.regB ∧
      rec.ovf = t.ovf ∧ rec.zf = t.zf ∧ rec.symbols = t.sym.map (fun e => (e.1, memRead t e.2))) ∧
    (t.mode = .faulted ∨ (∀ i, ¬ Executes s i) → t.trace = s.trace)

/-! ### Commands and the engine -/

/-- R150: the mode changes of every mode and command, and no others. That the command taken is the oldest of a queue
(log 1), that without one a step changes nothing (log 2), that `Quit` has no step (log 3), and that in `Halted` and
`Faulted` only the queue changes (log 19) are the model's choices. -/
def Obligations.ModeTransitions : Prop :=
  ∀ s t : State, step s = .next t →
    (s.mode = .idle ∨ s.mode = .stepping →
      (s.commands.head? = some .step → t.mode ∈ [Mode.stepping, .halted, .faulted]) ∧
      (s.commands.head? = some .run → t.mode = .running) ∧
      (s.commands.head? = some .quit → t.mode = .quit) ∧
      (s.commands = [] → t = s)) ∧
    (s.mode = .running → t.mode ∈ [Mode.running, .idle, .halted, .faulted] ∧
      (t.mode = .idle → s.checkpoint = true ∧ s.answers.head? = some .negative)) ∧
    (s.mode = .halted ∨ s.mode = .faulted →
      (s.commands.head? = some .quit → t.mode = .quit) ∧
      (s.commands.head? ≠ some .quit → t = { s with commands := t.commands })) ∧
    s.mode ≠ .quit

/-- R160: with a command to take, a step from `Idle` and one from `Stepping` are the same. -/
def Obligations.IdleAndSteppingAreEquivalent : Prop :=
  ∀ s : State, s.commands ≠ [] → step { s with mode := .idle } = step { s with mode := .stepping }

/-- R155 and R156: `a` starts an invocation with the count at 0 and the pause enabled, and changes no architectural
state (that the start is a step of its own is the model's choice, log 10). -/
def Obligations.RunStartsWithAFreshCount : Prop :=
  ∀ (s : State) (rest : List Command), s.mode = .idle ∨ s.mode = .stepping → s.commands = .run :: rest →
    step s = .next { s with
      commands := rest, mode := .running, runCount := 0, pauseEnabled := true, checkpoint := false }

/-- R156: the pause comes after the 1000th counted instruction, before the next fetch, and whatever that fetch would
find. -/
def Obligations.CheckpointAfterTheThousandth : Prop :=
  ∀ (s t : State), EngineInv s → s.mode = .running → step s = .next t → t.mode = .running →
    (s.checkpoint = false → t.runCount = s.runCount + 1 ∧
      (t.checkpoint = true ↔ s.pauseEnabled = true ∧ s.runCount + 1 = 1000)) ∧
    (s.checkpoint = true → SameArch s t ∧ t.runCount = s.runCount)

/-- R156 and R162: a negative answer returns the engine to `Idle` with all architectural state kept; any other goes on
with no further pause; and with no answer the block stays paused (the answers' queue and a wait's unchanged step are
the model's choices, log 1 and log 2). -/
def Obligations.CheckpointAnswers : Prop :=
  ∀ s : State, s.mode = .running → s.checkpoint = true →
    (∀ rest, s.answers = .negative :: rest →
      step s = .next { s with answers := rest, checkpoint := false, mode := .idle }) ∧
    (∀ rest, s.answers = .other :: rest →
      step s = .next { s with answers := rest, checkpoint := false, pauseEnabled := false }) ∧
    (s.answers = [] → step s = .next s)

/-- R162: a run whose pause was answered goes on, step after step, until it reaches a HLT or faults: nothing else ends
it. -/
def Obligations.ResumedRunEndsOnlyByHltOrFault : Prop :=
  ∀ (k : Nat) (s t : State), s.mode = .running → s.pauseEnabled = false → s.checkpoint = false →
    Sys2Proof.core.run k s = .next t →
    (t.mode = .running ∧ t.pauseEnabled = false ∧ t.checkpoint = false ∧ t.runCount = s.runCount + k) ∨
      t.mode = .halted ∨ t.mode = .faulted ∨ t.mode = .quit

/-- R157, R158, R163: in `Halted` and `Faulted` no number of steps changes the architectural state, the trace or the
fault, and the only other mode reached is `Quit`. -/
def Obligations.HaltedAndFaultedAreTerminal : Prop :=
  ∀ (k : Nat) (s t : State), s.mode = .halted ∨ s.mode = .faulted → Sys2Proof.core.run k s = .next t →
    SameArch s t ∧ t.trace = s.trace ∧ t.fault = s.fault ∧ (t.mode = s.mode ∨ t.mode = .quit)

/-- R159: `q` is taken in every mode but `Running` (and `Quit` itself), with exit code 0 and nothing else changed; in
`Running` no command is taken. That `q` is taken from a queue, in which a command given in `Running` stays, is the
model's choice, log 1, and so is that `Quit` has no step, log 3. -/
def Obligations.QuitIsTakenExceptWhileRunning : Prop :=
  (∀ (s : State) (rest : List Command), s.mode ≠ .running → s.mode ≠ .quit → s.commands = .quit :: rest →
    step s = .next { s with commands := rest, mode := .quit, exitCode := some 0 }) ∧
  (∀ s t : State, s.mode = .running → step s = .next t → t.commands = s.commands ∧ t.exitCode = s.exitCode)

/-- R33, R42, R51: no step writes program memory, `L` or the parameters. -/
def Obligations.NoStepWritesProgramMemory : Prop :=
  ∀ s t : State, step s = .next t → t.prog = s.prog ∧ t.progLen = s.progLen ∧ t.params = s.params

/-- R164: a program that halts after `k` single steps, with `k - 1 < 1000`, halts after one run-to-halt with the same
architectural state and the same trace (in `k + 1` steps, as the start of the run is one: the model's choice, log 10). -/
def Obligations.RunToHaltAgreesWithSingleSteps : Prop :=
  ∀ (s t : State) (k : Nat), s.mode = .idle ∨ s.mode = .stepping → k ≤ 1000 →
    s.commands = List.replicate k .step → Sys2Proof.core.run k s = .next t → t.mode = .halted →
    (∀ j u, j < k → Sys2Proof.core.run j s = .next u → u.mode ≠ .halted) →
    ∃ t', Sys2Proof.core.run (k + 1) { s with commands := [.run] } = .next t' ∧ t'.mode = .halted ∧
      SameArch t t' ∧ t'.trace = t.trace ∧ t'.answers = s.answers ∧ t'.runCount = k - 1

/-! ### Invariants of every step -/

/-- R30, R31, R32, R33, R46: the canonical forms, the uniqueness of slots and the vacancy of bound slots are kept by
every step. -/
def Obligations.StepKeepsTheDataInvariant : Prop :=
  ∀ s t : State, DataInv s → step s = .next t → DataInv t

/-- R34, R156, R202: the agreement of the engine's fields is kept by every step. -/
def Obligations.StepKeepsTheEngineInvariant : Prop :=
  ∀ s t : State, EngineInv s → step s = .next t → EngineInv t

/-- R23: under the default literal range every step keeps every value within 32 bits. -/
def Obligations.StepKeepsValuesWithin32Bits : Prop :=
  ∀ s t : State, DefaultLiterals s → Memory.wf s.store = true → ValuesFit32 s → step s = .next t → ValuesFit32 t

/-- R23: from every launch under the default literal range, whatever the program and the host's commands and answers,
every register and slot lies in [−2^31, 2^31−1], and its upper 32 bits are copies of bit 31. -/
def Obligations.ReachableValuesAreSignExtended : Prop :=
  ∀ (k : Nat) (s t : State), CleanLaunch s → DefaultLiterals s → Sys2Proof.core.run k s = .next t →
    ValuesFit32 t ∧
    ∀ v, v = t.regA ∨ v = t.regB ∨ (∃ j, v = memRead t j) → (v.setWidth 32).signExtend 64 = v

/-- R71, R163: from every launch a step has a next state, unless the host has quit: no record refused at load is ever
fetched, and nothing else stops the block. That a wait is a step (log 2) and `Quit` has none (log 3) are the model's
choices. -/
def Obligations.LaunchedBlockNeverStops : Prop :=
  ∀ s : State, LoaderImage s → s.mode ≠ .quit → ∃ t, step s = .next t ∧ LoaderImage t
end

