-- ==== Sys2Proof/Laws/Cells.lean ====
section
/-! SUPPORT. The laws of a sparse memory in canonical form: read after write, the form is kept, and equal contents are
equal data. -/

namespace Sys2Proof.Machine

variable {α : Type} [DecidableEq α] {dflt : α}

theorem cellsWf_cons {bound lo j : Nat} {v : α} {rest : List (Nat × α)} :
    cellsWf dflt bound lo ((j, v) :: rest) = true ↔
      lo ≤ j ∧ j < bound ∧ v ≠ dflt ∧ cellsWf dflt bound (j + 1) rest = true := by
  simp [cellsWf, and_assoc]

theorem cellsWf_mono {bound lo lo' : Nat} {m : List (Nat × α)} (hle : lo' ≤ lo)
    (h : cellsWf dflt bound lo m = true) : cellsWf dflt bound lo' m = true := by
  cases m with
  | nil => rfl
  | cons e rest =>
    rw [cellsWf_cons] at h ⊢
    exact ⟨hle.trans h.1, h.2⟩

/-- No entry of a form that rises from `lo` is below `lo`. -/
theorem cellGet_below {bound lo k : Nat} {m : List (Nat × α)} (h : cellsWf dflt bound lo m = true)
    (hk : k < lo) : cellGet dflt m k = dflt := by
  induction m generalizing lo with
  | nil => rfl
  | cons e rest ih =>
    rw [cellsWf_cons] at h
    rw [cellGet, if_neg (by omega)]
    exact ih h.2.2.2 (by omega)

/-- Every index reads as before a write, except the one written. -/
theorem cellGet_cellSet_ne {m : List (Nat × α)} {j k : Nat} {v : α} (hne : j ≠ k) :
    cellGet dflt (cellSet dflt m k v) j = cellGet dflt m j := by
  induction m with
  | nil =>
    by_cases hv : v = dflt <;> simp [cellSet, cellGet, hv, hne.symm]
  | cons e rest ih =>
    obtain ⟨i, w⟩ := e
    by_cases hlt : k < i
    · by_cases hv : v = dflt <;> simp [cellSet, cellGet, hlt, hv, hne.symm]
    · by_cases hki : k = i
      · subst hki
        by_cases hv : v = dflt <;> simp [cellSet, cellGet, hv, hne.symm]
      · simp [cellSet, cellGet, hlt, hki, ih]

/-- A write is read back, in canonical form. -/
theorem cellGet_cellSet_eq {bound lo k : Nat} {m : List (Nat × α)} {v : α} (h : cellsWf dflt bound lo m = true) :
    cellGet dflt (cellSet dflt m k v) k = v := by
  induction m generalizing lo with
  | nil =>
    by_cases hv : v = dflt <;> simp [cellSet, cellGet, hv]
  | cons e rest ih =>
    obtain ⟨i, w⟩ := e
    rw [cellsWf_cons] at h
    by_cases hlt : k < i
    · have hrest : cellGet dflt rest k = dflt := cellGet_below h.2.2.2 (by omega)
      by_cases hv : v = dflt
      · simp [cellSet, cellGet, hlt, hv, hrest, show i ≠ k by omega]
      · simp [cellSet, cellGet, hlt, hv]
    · by_cases hki : k = i
      · subst hki
        have hrest : cellGet dflt rest k = dflt := cellGet_below h.2.2.2 (by omega)
        by_cases hv : v = dflt <;> simp [cellSet, cellGet, hv, hrest]
      · have := ih h.2.2.2
        simp [cellSet, cellGet, hlt, hki, this, Ne.symm hki]

/-- A write keeps the canonical form. -/
theorem cellsWf_cellSet {bound lo k : Nat} {m : List (Nat × α)} {v : α} (h : cellsWf dflt bound lo m = true)
    (hlo : lo ≤ k) (hk : k < bound) : cellsWf dflt bound lo (cellSet dflt m k v) = true := by
  induction m generalizing lo with
  | nil =>
    by_cases hv : v = dflt
    · simp [cellSet, hv, cellsWf]
    · simp [cellSet, hv, cellsWf, hlo, hk]
  | cons e rest ih =>
    obtain ⟨i, w⟩ := e
    have hcons := h
    rw [cellsWf_cons] at h
    by_cases hlt : k < i
    · by_cases hv : v = dflt
      · simpa [cellSet, hlt, hv] using hcons
      · rw [cellSet, if_pos hlt, if_neg hv, cellsWf_cons]
        exact ⟨hlo, hk, hv, cellsWf_cons.mpr ⟨by omega, h.2⟩⟩
    · by_cases hki : k = i
      · by_cases hv : v = dflt
        · rw [cellSet, if_neg hlt, if_pos hki, if_pos hv]
          exact cellsWf_mono (by omega) h.2.2.2
        · rw [cellSet, if_neg hlt, if_pos hki, if_neg hv, cellsWf_cons]
          exact ⟨hlo, hk, hv, hki ▸ h.2.2.2⟩
      · rw [cellSet, if_neg hlt, if_neg hki, cellsWf_cons]
        exact ⟨h.1, h.2.1, h.2.2.1, ih h.2.2.2 (by omega)⟩

/-- In canonical form, a listed entry is what its index reads. -/
theorem cellGet_of_mem {bound lo : Nat} {m : List (Nat × α)} {e : Nat × α} (h : cellsWf dflt bound lo m = true)
    (he : e ∈ m) : cellGet dflt m e.1 = e.2 ∧ lo ≤ e.1 ∧ e.1 < bound ∧ e.2 ≠ dflt := by
  induction m generalizing lo with
  | nil => simp at he
  | cons f rest ih =>
    obtain ⟨i, w⟩ := f
    rw [cellsWf_cons] at h
    rcases List.mem_cons.mp he with rfl | he
    · exact ⟨by simp [cellGet], h.1, h.2.1, h.2.2.1⟩
    · have := ih h.2.2.2 he
      refine ⟨?_, by omega, this.2.2.1, this.2.2.2⟩
      rw [cellGet, if_neg (by omega)]
      exact this.1

omit [DecidableEq α] in
/-- A read that is not the default comes from a listed entry. -/
theorem mem_of_cellGet_ne {m : List (Nat × α)} {k : Nat} (h : cellGet dflt m k ≠ dflt) :
    (k, cellGet dflt m k) ∈ m := by
  induction m with
  | nil => exact absurd rfl h
  | cons e rest ih =>
    obtain ⟨i, w⟩ := e
    by_cases hik : i = k
    · subst hik
      simp [cellGet]
    · simp only [cellGet, if_neg hik] at h ⊢
      exact List.mem_cons_of_mem _ (ih h)

/-- Two memories in canonical form that read alike everywhere are equal data. -/
theorem cells_ext {bound lo : Nat} {m m' : List (Nat × α)} (h : cellsWf dflt bound lo m = true)
    (h' : cellsWf dflt bound lo m' = true) (hget : ∀ k, cellGet dflt m k = cellGet dflt m' k) : m = m' := by
  induction m generalizing lo m' with
  | nil =>
    cases m' with
    | nil => rfl
    | cons e rest =>
      rw [cellsWf_cons] at h'
      have := hget e.1
      simp only [cellGet, if_true] at this
      exact absurd this.symm h'.2.2.1
  | cons e rest ih =>
    obtain ⟨i, w⟩ := e
    have hm := h
    rw [cellsWf_cons] at h
    cases m' with
    | nil =>
      have := hget i
      simp only [cellGet, if_true] at this
      exact absurd this h.2.2.1
    | cons e' rest' =>
      obtain ⟨i', w'⟩ := e'
      have hm' := h'
      rw [cellsWf_cons] at h'
      have hii : i = i' := by
        rcases lt_trichotomy i i' with hlt | heq | hlt
        · have hg := hget i
          have hr : cellGet dflt rest' i = dflt := cellGet_below h'.2.2.2 (by omega)
          simp only [cellGet, if_true, if_neg (show i' ≠ i by omega), hr] at hg
          exact absurd hg h.2.2.1
        · exact heq
        · have hg := hget i'
          have hr : cellGet dflt rest i' = dflt := cellGet_below h.2.2.2 (by omega)
          simp only [cellGet, if_true, if_neg (show i ≠ i' by omega), hr] at hg
          exact absurd hg.symm h'.2.2.1
      subst hii
      have hww : w = w' := by simpa [cellGet] using hget i
      subst hww
      have hrest : rest = rest' := by
        refine ih h.2.2.2 h'.2.2.2 fun k => ?_
        by_cases hki : i = k
        · subst hki
          rw [cellGet_below h.2.2.2 (by omega), cellGet_below h'.2.2.2 (by omega)]
        · simpa [cellGet, hki] using hget k
      rw [hrest]

end Sys2Proof.Machine
end

