-- ==== Sys2Proof/Laws/State.lean ====
section
/-! SUPPORT. What every named update of the state does to every field of it. -/

namespace Sys2Proof.Machine

/-! `setA` -/

@[simp] theorem setA_regA (s : State) (v : Word) : (setA s v).regA = v := rfl
@[simp] theorem setA_regB (s : State) (v : Word) : (setA s v).regB = s.regB := rfl
@[simp] theorem setA_pc (s : State) (v : Word) : (setA s v).pc = s.pc := rfl
@[simp] theorem setA_zf (s : State) (v : Word) : (setA s v).zf = s.zf := rfl
@[simp] theorem setA_ovf (s : State) (v : Word) : (setA s v).ovf = s.ovf := rfl
@[simp] theorem setA_store (s : State) (v : Word) : (setA s v).store = s.store := rfl
@[simp] theorem setA_sym (s : State) (v : Word) : (setA s v).sym = s.sym := rfl
@[simp] theorem setA_prog (s : State) (v : Word) : (setA s v).prog = s.prog := rfl
@[simp] theorem setA_progLen (s : State) (v : Word) : (setA s v).progLen = s.progLen := rfl
@[simp] theorem setA_mode (s : State) (v : Word) : (setA s v).mode = s.mode := rfl
@[simp] theorem setA_runCount (s : State) (v : Word) : (setA s v).runCount = s.runCount := rfl
@[simp] theorem setA_pauseEnabled (s : State) (v : Word) : (setA s v).pauseEnabled = s.pauseEnabled := rfl
@[simp] theorem setA_fault (s : State) (v : Word) : (setA s v).fault = s.fault := rfl
@[simp] theorem setA_checkpoint (s : State) (v : Word) : (setA s v).checkpoint = s.checkpoint := rfl
@[simp] theorem setA_commands (s : State) (v : Word) : (setA s v).commands = s.commands := rfl
@[simp] theorem setA_answers (s : State) (v : Word) : (setA s v).answers = s.answers := rfl
@[simp] theorem setA_trace (s : State) (v : Word) : (setA s v).trace = s.trace := rfl
@[simp] theorem setA_exitCode (s : State) (v : Word) : (setA s v).exitCode = s.exitCode := rfl
@[simp] theorem setA_params (s : State) (v : Word) : (setA s v).params = s.params := rfl

/-! `setB` -/

@[simp] theorem setB_regA (s : State) (v : Word) : (setB s v).regA = s.regA := rfl
@[simp] theorem setB_regB (s : State) (v : Word) : (setB s v).regB = v := rfl
@[simp] theorem setB_pc (s : State) (v : Word) : (setB s v).pc = s.pc := rfl
@[simp] theorem setB_zf (s : State) (v : Word) : (setB s v).zf = s.zf := rfl
@[simp] theorem setB_ovf (s : State) (v : Word) : (setB s v).ovf = s.ovf := rfl
@[simp] theorem setB_store (s : State) (v : Word) : (setB s v).store = s.store := rfl
@[simp] theorem setB_sym (s : State) (v : Word) : (setB s v).sym = s.sym := rfl
@[simp] theorem setB_prog (s : State) (v : Word) : (setB s v).prog = s.prog := rfl
@[simp] theorem setB_progLen (s : State) (v : Word) : (setB s v).progLen = s.progLen := rfl
@[simp] theorem setB_mode (s : State) (v : Word) : (setB s v).mode = s.mode := rfl
@[simp] theorem setB_runCount (s : State) (v : Word) : (setB s v).runCount = s.runCount := rfl
@[simp] theorem setB_pauseEnabled (s : State) (v : Word) : (setB s v).pauseEnabled = s.pauseEnabled := rfl
@[simp] theorem setB_fault (s : State) (v : Word) : (setB s v).fault = s.fault := rfl
@[simp] theorem setB_checkpoint (s : State) (v : Word) : (setB s v).checkpoint = s.checkpoint := rfl
@[simp] theorem setB_commands (s : State) (v : Word) : (setB s v).commands = s.commands := rfl
@[simp] theorem setB_answers (s : State) (v : Word) : (setB s v).answers = s.answers := rfl
@[simp] theorem setB_trace (s : State) (v : Word) : (setB s v).trace = s.trace := rfl
@[simp] theorem setB_exitCode (s : State) (v : Word) : (setB s v).exitCode = s.exitCode := rfl
@[simp] theorem setB_params (s : State) (v : Word) : (setB s v).params = s.params := rfl

/-! `setPc` -/

@[simp] theorem setPc_regA (s : State) (v : Word) : (setPc s v).regA = s.regA := rfl
@[simp] theorem setPc_regB (s : State) (v : Word) : (setPc s v).regB = s.regB := rfl
@[simp] theorem setPc_pc (s : State) (v : Word) : (setPc s v).pc = v := rfl
@[simp] theorem setPc_zf (s : State) (v : Word) : (setPc s v).zf = s.zf := rfl
@[simp] theorem setPc_ovf (s : State) (v : Word) : (setPc s v).ovf = s.ovf := rfl
@[simp] theorem setPc_store (s : State) (v : Word) : (setPc s v).store = s.store := rfl
@[simp] theorem setPc_sym (s : State) (v : Word) : (setPc s v).sym = s.sym := rfl
@[simp] theorem setPc_prog (s : State) (v : Word) : (setPc s v).prog = s.prog := rfl
@[simp] theorem setPc_progLen (s : State) (v : Word) : (setPc s v).progLen = s.progLen := rfl
@[simp] theorem setPc_mode (s : State) (v : Word) : (setPc s v).mode = s.mode := rfl
@[simp] theorem setPc_runCount (s : State) (v : Word) : (setPc s v).runCount = s.runCount := rfl
@[simp] theorem setPc_pauseEnabled (s : State) (v : Word) : (setPc s v).pauseEnabled = s.pauseEnabled := rfl
@[simp] theorem setPc_fault (s : State) (v : Word) : (setPc s v).fault = s.fault := rfl
@[simp] theorem setPc_checkpoint (s : State) (v : Word) : (setPc s v).checkpoint = s.checkpoint := rfl
@[simp] theorem setPc_commands (s : State) (v : Word) : (setPc s v).commands = s.commands := rfl
@[simp] theorem setPc_answers (s : State) (v : Word) : (setPc s v).answers = s.answers := rfl
@[simp] theorem setPc_trace (s : State) (v : Word) : (setPc s v).trace = s.trace := rfl
@[simp] theorem setPc_exitCode (s : State) (v : Word) : (setPc s v).exitCode = s.exitCode := rfl
@[simp] theorem setPc_params (s : State) (v : Word) : (setPc s v).params = s.params := rfl

/-! `advance` -/

@[simp] theorem advance_regA (s : State) : (advance s).regA = s.regA := rfl
@[simp] theorem advance_regB (s : State) : (advance s).regB = s.regB := rfl
@[simp] theorem advance_pc (s : State) : (advance s).pc = s.pc + 1 := rfl
@[simp] theorem advance_zf (s : State) : (advance s).zf = s.zf := rfl
@[simp] theorem advance_ovf (s : State) : (advance s).ovf = s.ovf := rfl
@[simp] theorem advance_store (s : State) : (advance s).store = s.store := rfl
@[simp] theorem advance_sym (s : State) : (advance s).sym = s.sym := rfl
@[simp] theorem advance_prog (s : State) : (advance s).prog = s.prog := rfl
@[simp] theorem advance_progLen (s : State) : (advance s).progLen = s.progLen := rfl
@[simp] theorem advance_mode (s : State) : (advance s).mode = s.mode := rfl
@[simp] theorem advance_runCount (s : State) : (advance s).runCount = s.runCount := rfl
@[simp] theorem advance_pauseEnabled (s : State) : (advance s).pauseEnabled = s.pauseEnabled := rfl
@[simp] theorem advance_fault (s : State) : (advance s).fault = s.fault := rfl
@[simp] theorem advance_checkpoint (s : State) : (advance s).checkpoint = s.checkpoint := rfl
@[simp] theorem advance_commands (s : State) : (advance s).commands = s.commands := rfl
@[simp] theorem advance_answers (s : State) : (advance s).answers = s.answers := rfl
@[simp] theorem advance_trace (s : State) : (advance s).trace = s.trace := rfl
@[simp] theorem advance_exitCode (s : State) : (advance s).exitCode = s.exitCode := rfl
@[simp] theorem advance_params (s : State) : (advance s).params = s.params := rfl

/-! `setFlags` -/

@[simp] theorem setFlags_regA (s : State) (z o : Bool) : (setFlags s z o).regA = s.regA := rfl
@[simp] theorem setFlags_regB (s : State) (z o : Bool) : (setFlags s z o).regB = s.regB := rfl
@[simp] theorem setFlags_pc (s : State) (z o : Bool) : (setFlags s z o).pc = s.pc := rfl
@[simp] theorem setFlags_zf (s : State) (z o : Bool) : (setFlags s z o).zf = z := rfl
@[simp] theorem setFlags_ovf (s : State) (z o : Bool) : (setFlags s z o).ovf = o := rfl
@[simp] theorem setFlags_store (s : State) (z o : Bool) : (setFlags s z o).store = s.store := rfl
@[simp] theorem setFlags_sym (s : State) (z o : Bool) : (setFlags s z o).sym = s.sym := rfl
@[simp] theorem setFlags_prog (s : State) (z o : Bool) : (setFlags s z o).prog = s.prog := rfl
@[simp] theorem setFlags_progLen (s : State) (z o : Bool) : (setFlags s z o).progLen = s.progLen := rfl
@[simp] theorem setFlags_mode (s : State) (z o : Bool) : (setFlags s z o).mode = s.mode := rfl
@[simp] theorem setFlags_runCount (s : State) (z o : Bool) : (setFlags s z o).runCount = s.runCount := rfl
@[simp] theorem setFlags_pauseEnabled (s : State) (z o : Bool) : (setFlags s z o).pauseEnabled = s.pauseEnabled := rfl
@[simp] theorem setFlags_fault (s : State) (z o : Bool) : (setFlags s z o).fault = s.fault := rfl
@[simp] theorem setFlags_checkpoint (s : State) (z o : Bool) : (setFlags s z o).checkpoint = s.checkpoint := rfl
@[simp] theorem setFlags_commands (s : State) (z o : Bool) : (setFlags s z o).commands = s.commands := rfl
@[simp] theorem setFlags_answers (s : State) (z o : Bool) : (setFlags s z o).answers = s.answers := rfl
@[simp] theorem setFlags_trace (s : State) (z o : Bool) : (setFlags s z o).trace = s.trace := rfl
@[simp] theorem setFlags_exitCode (s : State) (z o : Bool) : (setFlags s z o).exitCode = s.exitCode := rfl
@[simp] theorem setFlags_params (s : State) (z o : Bool) : (setFlags s z o).params = s.params := rfl

/-! `memWrite` -/

@[simp] theorem memWrite_regA (s : State) (k : Slot) (v : Word) : (memWrite s k v).regA = s.regA := rfl
@[simp] theorem memWrite_regB (s : State) (k : Slot) (v : Word) : (memWrite s k v).regB = s.regB := rfl
@[simp] theorem memWrite_pc (s : State) (k : Slot) (v : Word) : (memWrite s k v).pc = s.pc := rfl
@[simp] theorem memWrite_zf (s : State) (k : Slot) (v : Word) : (memWrite s k v).zf = s.zf := rfl
@[simp] theorem memWrite_ovf (s : State) (k : Slot) (v : Word) : (memWrite s k v).ovf = s.ovf := rfl
@[simp] theorem memWrite_store (s : State) (k : Slot) (v : Word) : (memWrite s k v).store = cellSet storeDefault s.store k.val v := rfl
@[simp] theorem memWrite_sym (s : State) (k : Slot) (v : Word) : (memWrite s k v).sym = s.sym := rfl
@[simp] theorem memWrite_prog (s : State) (k : Slot) (v : Word) : (memWrite s k v).prog = s.prog := rfl
@[simp] theorem memWrite_progLen (s : State) (k : Slot) (v : Word) : (memWrite s k v).progLen = s.progLen := rfl
@[simp] theorem memWrite_mode (s : State) (k : Slot) (v : Word) : (memWrite s k v).mode = s.mode := rfl
@[simp] theorem memWrite_runCount (s : State) (k : Slot) (v : Word) : (memWrite s k v).runCount = s.runCount := rfl
@[simp] theorem memWrite_pauseEnabled (s : State) (k : Slot) (v : Word) : (memWrite s k v).pauseEnabled = s.pauseEnabled := rfl
@[simp] theorem memWrite_fault (s : State) (k : Slot) (v : Word) : (memWrite s k v).fault = s.fault := rfl
@[simp] theorem memWrite_checkpoint (s : State) (k : Slot) (v : Word) : (memWrite s k v).checkpoint = s.checkpoint := rfl
@[simp] theorem memWrite_commands (s : State) (k : Slot) (v : Word) : (memWrite s k v).commands = s.commands := rfl
@[simp] theorem memWrite_answers (s : State) (k : Slot) (v : Word) : (memWrite s k v).answers = s.answers := rfl
@[simp] theorem memWrite_trace (s : State) (k : Slot) (v : Word) : (memWrite s k v).trace = s.trace := rfl
@[simp] theorem memWrite_exitCode (s : State) (k : Slot) (v : Word) : (memWrite s k v).exitCode = s.exitCode := rfl
@[simp] theorem memWrite_params (s : State) (k : Slot) (v : Word) : (memWrite s k v).params = s.params := rfl

/-! `bindSym` -/

@[simp] theorem bindSym_regA (s : State) (n : Text) (k : Slot) : (bindSym s n k).regA = s.regA := rfl
@[simp] theorem bindSym_regB (s : State) (n : Text) (k : Slot) : (bindSym s n k).regB = s.regB := rfl
@[simp] theorem bindSym_pc (s : State) (n : Text) (k : Slot) : (bindSym s n k).pc = s.pc := rfl
@[simp] theorem bindSym_zf (s : State) (n : Text) (k : Slot) : (bindSym s n k).zf = s.zf := rfl
@[simp] theorem bindSym_ovf (s : State) (n : Text) (k : Slot) : (bindSym s n k).ovf = s.ovf := rfl
@[simp] theorem bindSym_store (s : State) (n : Text) (k : Slot) : (bindSym s n k).store = s.store := rfl
@[simp] theorem bindSym_sym (s : State) (n : Text) (k : Slot) : (bindSym s n k).sym = symSet s.sym n k := rfl
@[simp] theorem bindSym_prog (s : State) (n : Text) (k : Slot) : (bindSym s n k).prog = s.prog := rfl
@[simp] theorem bindSym_progLen (s : State) (n : Text) (k : Slot) : (bindSym s n k).progLen = s.progLen := rfl
@[simp] theorem bindSym_mode (s : State) (n : Text) (k : Slot) : (bindSym s n k).mode = s.mode := rfl
@[simp] theorem bindSym_runCount (s : State) (n : Text) (k : Slot) : (bindSym s n k).runCount = s.runCount := rfl
@[simp] theorem bindSym_pauseEnabled (s : State) (n : Text) (k : Slot) : (bindSym s n k).pauseEnabled = s.pauseEnabled := rfl
@[simp] theorem bindSym_fault (s : State) (n : Text) (k : Slot) : (bindSym s n k).fault = s.fault := rfl
@[simp] theorem bindSym_checkpoint (s : State) (n : Text) (k : Slot) : (bindSym s n k).checkpoint = s.checkpoint := rfl
@[simp] theorem bindSym_commands (s : State) (n : Text) (k : Slot) : (bindSym s n k).commands = s.commands := rfl
@[simp] theorem bindSym_answers (s : State) (n : Text) (k : Slot) : (bindSym s n k).answers = s.answers := rfl
@[simp] theorem bindSym_trace (s : State) (n : Text) (k : Slot) : (bindSym s n k).trace = s.trace := rfl
@[simp] theorem bindSym_exitCode (s : State) (n : Text) (k : Slot) : (bindSym s n k).exitCode = s.exitCode := rfl
@[simp] theorem bindSym_params (s : State) (n : Text) (k : Slot) : (bindSym s n k).params = s.params := rfl

/-! `raise` -/

@[simp] theorem raise_regA (s : State) (kind : FaultKind) (info : Option Text) : (raise s kind info).regA = s.regA := rfl
@[simp] theorem raise_regB (s : State) (kind : FaultKind) (info : Option Text) : (raise s kind info).regB = s.regB := rfl
@[simp] theorem raise_pc (s : State) (kind : FaultKind) (info : Option Text) : (raise s kind info).pc = s.pc := rfl
@[simp] theorem raise_zf (s : State) (kind : FaultKind) (info : Option Text) : (raise s kind info).zf = s.zf := rfl
@[simp] theorem raise_ovf (s : State) (kind : FaultKind) (info : Option Text) : (raise s kind info).ovf = s.ovf := rfl
@[simp] theorem raise_store (s : State) (kind : FaultKind) (info : Option Text) : (raise s kind info).store = s.store := rfl
@[simp] theorem raise_sym (s : State) (kind : FaultKind) (info : Option Text) : (raise s kind info).sym = s.sym := rfl
@[simp] theorem raise_prog (s : State) (kind : FaultKind) (info : Option Text) : (raise s kind info).prog = s.prog := rfl
@[simp] theorem raise_progLen (s : State) (kind : FaultKind) (info : Option Text) : (raise s kind info).progLen = s.progLen := rfl
@[simp] theorem raise_mode (s : State) (kind : FaultKind) (info : Option Text) : (raise s kind info).mode = .faulted := rfl
@[simp] theorem raise_runCount (s : State) (kind : FaultKind) (info : Option Text) : (raise s kind info).runCount = s.runCount := rfl
@[simp] theorem raise_pauseEnabled (s : State) (kind : FaultKind) (info : Option Text) : (raise s kind info).pauseEnabled = s.pauseEnabled := rfl
@[simp] theorem raise_fault (s : State) (kind : FaultKind) (info : Option Text) : (raise s kind info).fault = some ⟨kind, s.pc, info⟩ := rfl
@[simp] theorem raise_checkpoint (s : State) (kind : FaultKind) (info : Option Text) : (raise s kind info).checkpoint = s.checkpoint := rfl
@[simp] theorem raise_commands (s : State) (kind : FaultKind) (info : Option Text) : (raise s kind info).commands = s.commands := rfl
@[simp] theorem raise_answers (s : State) (kind : FaultKind) (info : Option Text) : (raise s kind info).answers = s.answers := rfl
@[simp] theorem raise_trace (s : State) (kind : FaultKind) (info : Option Text) : (raise s kind info).trace = s.trace := rfl
@[simp] theorem raise_exitCode (s : State) (kind : FaultKind) (info : Option Text) : (raise s kind info).exitCode = s.exitCode := rfl
@[simp] theorem raise_params (s : State) (kind : FaultKind) (info : Option Text) : (raise s kind info).params = s.params := rfl

/-! `setMode` -/

@[simp] theorem setMode_regA (s : State) (m : Mode) : (setMode s m).regA = s.regA := rfl
@[simp] theorem setMode_regB (s : State) (m : Mode) : (setMode s m).regB = s.regB := rfl
@[simp] theorem setMode_pc (s : State) (m : Mode) : (setMode s m).pc = s.pc := rfl
@[simp] theorem setMode_zf (s : State) (m : Mode) : (setMode s m).zf = s.zf := rfl
@[simp] theorem setMode_ovf (s : State) (m : Mode) : (setMode s m).ovf = s.ovf := rfl
@[simp] theorem setMode_store (s : State) (m : Mode) : (setMode s m).store = s.store := rfl
@[simp] theorem setMode_sym (s : State) (m : Mode) : (setMode s m).sym = s.sym := rfl
@[simp] theorem setMode_prog (s : State) (m : Mode) : (setMode s m).prog = s.prog := rfl
@[simp] theorem setMode_progLen (s : State) (m : Mode) : (setMode s m).progLen = s.progLen := rfl
@[simp] theorem setMode_mode (s : State) (m : Mode) : (setMode s m).mode = m := rfl
@[simp] theorem setMode_runCount (s : State) (m : Mode) : (setMode s m).runCount = s.runCount := rfl
@[simp] theorem setMode_pauseEnabled (s : State) (m : Mode) : (setMode s m).pauseEnabled = s.pauseEnabled := rfl
@[simp] theorem setMode_fault (s : State) (m : Mode) : (setMode s m).fault = s.fault := rfl
@[simp] theorem setMode_checkpoint (s : State) (m : Mode) : (setMode s m).checkpoint = s.checkpoint := rfl
@[simp] theorem setMode_commands (s : State) (m : Mode) : (setMode s m).commands = s.commands := rfl
@[simp] theorem setMode_answers (s : State) (m : Mode) : (setMode s m).answers = s.answers := rfl
@[simp] theorem setMode_trace (s : State) (m : Mode) : (setMode s m).trace = s.trace := rfl
@[simp] theorem setMode_exitCode (s : State) (m : Mode) : (setMode s m).exitCode = s.exitCode := rfl
@[simp] theorem setMode_params (s : State) (m : Mode) : (setMode s m).params = s.params := rfl

/-! `emitTrace` -/

@[simp] theorem emitTrace_regA (s : State) (i : Instr) : (emitTrace s i).regA = s.regA := rfl
@[simp] theorem emitTrace_regB (s : State) (i : Instr) : (emitTrace s i).regB = s.regB := rfl
@[simp] theorem emitTrace_pc (s : State) (i : Instr) : (emitTrace s i).pc = s.pc := rfl
@[simp] theorem emitTrace_zf (s : State) (i : Instr) : (emitTrace s i).zf = s.zf := rfl
@[simp] theorem emitTrace_ovf (s : State) (i : Instr) : (emitTrace s i).ovf = s.ovf := rfl
@[simp] theorem emitTrace_store (s : State) (i : Instr) : (emitTrace s i).store = s.store := rfl
@[simp] theorem emitTrace_sym (s : State) (i : Instr) : (emitTrace s i).sym = s.sym := rfl
@[simp] theorem emitTrace_prog (s : State) (i : Instr) : (emitTrace s i).prog = s.prog := rfl
@[simp] theorem emitTrace_progLen (s : State) (i : Instr) : (emitTrace s i).progLen = s.progLen := rfl
@[simp] theorem emitTrace_mode (s : State) (i : Instr) : (emitTrace s i).mode = s.mode := rfl
@[simp] theorem emitTrace_runCount (s : State) (i : Instr) : (emitTrace s i).runCount = s.runCount := rfl
@[simp] theorem emitTrace_pauseEnabled (s : State) (i : Instr) : (emitTrace s i).pauseEnabled = s.pauseEnabled := rfl
@[simp] theorem emitTrace_fault (s : State) (i : Instr) : (emitTrace s i).fault = s.fault := rfl
@[simp] theorem emitTrace_checkpoint (s : State) (i : Instr) : (emitTrace s i).checkpoint = s.checkpoint := rfl
@[simp] theorem emitTrace_commands (s : State) (i : Instr) : (emitTrace s i).commands = s.commands := rfl
@[simp] theorem emitTrace_answers (s : State) (i : Instr) : (emitTrace s i).answers = s.answers := rfl
@[simp] theorem emitTrace_trace (s : State) (i : Instr) : (emitTrace s i).trace = traceRecord i s :: s.trace := rfl
@[simp] theorem emitTrace_exitCode (s : State) (i : Instr) : (emitTrace s i).exitCode = s.exitCode := rfl
@[simp] theorem emitTrace_params (s : State) (i : Instr) : (emitTrace s i).params = s.params := rfl

/-! `startRun` -/

@[simp] theorem startRun_regA (s : State) : (startRun s).regA = s.regA := rfl
@[simp] theorem startRun_regB (s : State) : (startRun s).regB = s.regB := rfl
@[simp] theorem startRun_pc (s : State) : (startRun s).pc = s.pc := rfl
@[simp] theorem startRun_zf (s : State) : (startRun s).zf = s.zf := rfl
@[simp] theorem startRun_ovf (s : State) : (startRun s).ovf = s.ovf := rfl
@[simp] theorem startRun_store (s : State) : (startRun s).store = s.store := rfl
@[simp] theorem startRun_sym (s : State) : (startRun s).sym = s.sym := rfl
@[simp] theorem startRun_prog (s : State) : (startRun s).prog = s.prog := rfl
@[simp] theorem startRun_progLen (s : State) : (startRun s).progLen = s.progLen := rfl
@[simp] theorem startRun_mode (s : State) : (startRun s).mode = .running := rfl
@[simp] theorem startRun_runCount (s : State) : (startRun s).runCount = 0 := rfl
@[simp] theorem startRun_pauseEnabled (s : State) : (startRun s).pauseEnabled = true := rfl
@[simp] theorem startRun_fault (s : State) : (startRun s).fault = s.fault := rfl
@[simp] theorem startRun_checkpoint (s : State) : (startRun s).checkpoint = false := rfl
@[simp] theorem startRun_commands (s : State) : (startRun s).commands = s.commands := rfl
@[simp] theorem startRun_answers (s : State) : (startRun s).answers = s.answers := rfl
@[simp] theorem startRun_trace (s : State) : (startRun s).trace = s.trace := rfl
@[simp] theorem startRun_exitCode (s : State) : (startRun s).exitCode = s.exitCode := rfl
@[simp] theorem startRun_params (s : State) : (startRun s).params = s.params := rfl

/-! `countInstr` -/

@[simp] theorem countInstr_regA (s : State) : (countInstr s).regA = s.regA := rfl
@[simp] theorem countInstr_regB (s : State) : (countInstr s).regB = s.regB := rfl
@[simp] theorem countInstr_pc (s : State) : (countInstr s).pc = s.pc := rfl
@[simp] theorem countInstr_zf (s : State) : (countInstr s).zf = s.zf := rfl
@[simp] theorem countInstr_ovf (s : State) : (countInstr s).ovf = s.ovf := rfl
@[simp] theorem countInstr_store (s : State) : (countInstr s).store = s.store := rfl
@[simp] theorem countInstr_sym (s : State) : (countInstr s).sym = s.sym := rfl
@[simp] theorem countInstr_prog (s : State) : (countInstr s).prog = s.prog := rfl
@[simp] theorem countInstr_progLen (s : State) : (countInstr s).progLen = s.progLen := rfl
@[simp] theorem countInstr_mode (s : State) : (countInstr s).mode = s.mode := rfl
@[simp] theorem countInstr_runCount (s : State) : (countInstr s).runCount = s.runCount + 1 := rfl
@[simp] theorem countInstr_pauseEnabled (s : State) : (countInstr s).pauseEnabled = s.pauseEnabled := rfl
@[simp] theorem countInstr_fault (s : State) : (countInstr s).fault = s.fault := rfl
@[simp] theorem countInstr_checkpoint (s : State) : (countInstr s).checkpoint = (s.pauseEnabled && (s.runCount + 1) % Config.checkpointInterval == 0) := rfl
@[simp] theorem countInstr_commands (s : State) : (countInstr s).commands = s.commands := rfl
@[simp] theorem countInstr_answers (s : State) : (countInstr s).answers = s.answers := rfl
@[simp] theorem countInstr_trace (s : State) : (countInstr s).trace = s.trace := rfl
@[simp] theorem countInstr_exitCode (s : State) : (countInstr s).exitCode = s.exitCode := rfl
@[simp] theorem countInstr_params (s : State) : (countInstr s).params = s.params := rfl

/-! `quit` -/

@[simp] theorem quit_regA (s : State) : (quit s).regA = s.regA := rfl
@[simp] theorem quit_regB (s : State) : (quit s).regB = s.regB := rfl
@[simp] theorem quit_pc (s : State) : (quit s).pc = s.pc := rfl
@[simp] theorem quit_zf (s : State) : (quit s).zf = s.zf := rfl
@[simp] theorem quit_ovf (s : State) : (quit s).ovf = s.ovf := rfl
@[simp] theorem quit_store (s : State) : (quit s).store = s.store := rfl
@[simp] theorem quit_sym (s : State) : (quit s).sym = s.sym := rfl
@[simp] theorem quit_prog (s : State) : (quit s).prog = s.prog := rfl
@[simp] theorem quit_progLen (s : State) : (quit s).progLen = s.progLen := rfl
@[simp] theorem quit_mode (s : State) : (quit s).mode = .quit := rfl
@[simp] theorem quit_runCount (s : State) : (quit s).runCount = s.runCount := rfl
@[simp] theorem quit_pauseEnabled (s : State) : (quit s).pauseEnabled = s.pauseEnabled := rfl
@[simp] theorem quit_fault (s : State) : (quit s).fault = s.fault := rfl
@[simp] theorem quit_checkpoint (s : State) : (quit s).checkpoint = s.checkpoint := rfl
@[simp] theorem quit_commands (s : State) : (quit s).commands = s.commands := rfl
@[simp] theorem quit_answers (s : State) : (quit s).answers = s.answers := rfl
@[simp] theorem quit_trace (s : State) : (quit s).trace = s.trace := rfl
@[simp] theorem quit_exitCode (s : State) : (quit s).exitCode = some 0 := rfl
@[simp] theorem quit_params (s : State) : (quit s).params = s.params := rfl

/-! `dropCommand` -/

@[simp] theorem dropCommand_regA (s : State) : (dropCommand s).regA = s.regA := rfl
@[simp] theorem dropCommand_regB (s : State) : (dropCommand s).regB = s.regB := rfl
@[simp] theorem dropCommand_pc (s : State) : (dropCommand s).pc = s.pc := rfl
@[simp] theorem dropCommand_zf (s : State) : (dropCommand s).zf = s.zf := rfl
@[simp] theorem dropCommand_ovf (s : State) : (dropCommand s).ovf = s.ovf := rfl
@[simp] theorem dropCommand_store (s : State) : (dropCommand s).store = s.store := rfl
@[simp] theorem dropCommand_sym (s : State) : (dropCommand s).sym = s.sym := rfl
@[simp] theorem dropCommand_prog (s : State) : (dropCommand s).prog = s.prog := rfl
@[simp] theorem dropCommand_progLen (s : State) : (dropCommand s).progLen = s.progLen := rfl
@[simp] theorem dropCommand_mode (s : State) : (dropCommand s).mode = s.mode := rfl
@[simp] theorem dropCommand_runCount (s : State) : (dropCommand s).runCount = s.runCount := rfl
@[simp] theorem dropCommand_pauseEnabled (s : State) : (dropCommand s).pauseEnabled = s.pauseEnabled := rfl
@[simp] theorem dropCommand_fault (s : State) : (dropCommand s).fault = s.fault := rfl
@[simp] theorem dropCommand_checkpoint (s : State) : (dropCommand s).checkpoint = s.checkpoint := rfl
@[simp] theorem dropCommand_commands (s : State) : (dropCommand s).commands = s.commands.tail := rfl
@[simp] theorem dropCommand_answers (s : State) : (dropCommand s).answers = s.answers := rfl
@[simp] theorem dropCommand_trace (s : State) : (dropCommand s).trace = s.trace := rfl
@[simp] theorem dropCommand_exitCode (s : State) : (dropCommand s).exitCode = s.exitCode := rfl
@[simp] theorem dropCommand_params (s : State) : (dropCommand s).params = s.params := rfl

end Sys2Proof.Machine
end

