-- ==== Sys2Proof/Laws/SymTab.lean ====
section
/-! SUPPORT. The laws of the symbol table: a binding is read back, the other names keep theirs, the canonical form and
the uniqueness of slots are kept (R32, R104, R105). -/

namespace Sys2Proof.Machine

/-! ### The order of names -/

theorem nameLt_irrefl (n : Text) : nameLt n n = false := by
  induction n with
  | nil => rfl
  | cons a as ih => simp [nameLt, ih]

theorem nameLt_trans {a b c : Text} (hab : nameLt a b = true) (hbc : nameLt b c = true) : nameLt a c = true := by
  induction a generalizing b c with
  | nil =>
    cases c with
    | nil => cases b <;> simp [nameLt] at hbc
    | cons z zs => rfl
  | cons x xs ih =>
    cases b with
    | nil => simp [nameLt] at hab
    | cons y ys =>
      cases c with
      | nil => simp [nameLt] at hbc
      | cons z zs =>
        by_cases hxy : x = y
        · subst hxy
          by_cases hxz : x = z
          · subst hxz
            simp only [nameLt, if_true] at hab hbc ⊢
            exact ih hab hbc
          · simpa [nameLt, hxz] using hbc
        · by_cases hyz : y = z
          · subst hyz
            simpa [nameLt, hxy] using hab
          · simp only [nameLt, if_neg hxy, if_neg hyz, decide_eq_true_eq] at hab hbc
            have hxz : x ≠ z := by
              rintro rfl
              omega
            simp only [nameLt, if_neg hxz, decide_eq_true_eq]
            omega

theorem nameLt_total {a b : Text} (hne : a ≠ b) (h : nameLt a b = false) : nameLt b a = true := by
  induction a generalizing b with
  | nil =>
    cases b with
    | nil => exact absurd rfl hne
    | cons y ys => simp [nameLt] at h
  | cons x xs ih =>
    cases b with
    | nil => rfl
    | cons y ys =>
      by_cases hxy : x = y
      · subst hxy
        simp only [nameLt, if_true] at h ⊢
        exact ih (by rintro rfl; exact hne rfl) h
      · have hval : x.toNat ≠ y.toNat := fun he => hxy (Char.ext (UInt32.toNat_inj.mp he))
        simp only [nameLt, if_neg hxy, decide_eq_false_iff_not] at h
        simp only [nameLt, if_neg (Ne.symm hxy), decide_eq_true_eq]
        omega

/-! ### Reading back -/

@[simp] theorem symGet_symSet_eq (t : SymTab) (n : Text) (k : Slot) : symGet (symSet t n k) n = some k := by
  induction t with
  | nil => simp [symSet, symGet]
  | cons e rest ih =>
    obtain ⟨m, j⟩ := e
    by_cases hmn : m = n
    · simp [symSet, symGet, hmn]
    · cases hlt : nameLt n m <;> simp [symSet, symGet, hmn, hlt, ih]

theorem symGet_symSet_ne {t : SymTab} {m n : Text} {k : Slot} (hne : m ≠ n) :
    symGet (symSet t n k) m = symGet t m := by
  induction t with
  | nil => simp [symSet, symGet, hne.symm]
  | cons e rest ih =>
    obtain ⟨l, j⟩ := e
    by_cases hln : l = n
    · subst hln
      simp [symSet, symGet, hne.symm]
    · cases hlt : nameLt n l <;> simp [symSet, symGet, hln, hlt, hne.symm, ih]

/-- An entry after a binding is the new one or an old one. -/
theorem mem_symSet {t : SymTab} {n : Text} {k : Slot} {e : Text × Slot} (h : e ∈ symSet t n k) :
    e = (n, k) ∨ e ∈ t := by
  induction t with
  | nil => simpa [symSet] using h
  | cons f rest ih =>
    obtain ⟨m, j⟩ := f
    by_cases hmn : m = n
    · rw [symSet, if_pos hmn] at h
      rcases List.mem_cons.mp h with h | h
      · exact .inl h
      · exact .inr (List.mem_cons_of_mem _ h)
    · cases hlt : nameLt n m
      · simp only [symSet, hmn, hlt, if_false, Bool.false_eq_true, List.mem_cons] at h
        rcases h with h | h
        · exact .inr (h ▸ List.mem_cons_self ..)
        · exact (ih h).imp_right (List.mem_cons_of_mem _)
      · simp only [symSet, hmn, hlt, if_false, if_true, List.mem_cons] at h
        rcases h with h | h
        · exact .inl h
        · exact .inr (List.mem_cons.mpr h)

theorem mem_of_symGet {t : SymTab} {n : Text} {k : Slot} (h : symGet t n = some k) : (n, k) ∈ t := by
  induction t with
  | nil => simp [symGet] at h
  | cons e rest ih =>
    obtain ⟨m, j⟩ := e
    by_cases hmn : m = n
    · simp only [symGet, if_pos hmn, Option.some.injEq] at h
      simp [hmn, h]
    · simp only [symGet, if_neg hmn] at h
      exact List.mem_cons_of_mem _ (ih h)

/-! ### The canonical form -/

theorem namesAbove_trans {n m : Text} {t : SymTab} (hnm : nameLt n m = true) (h : namesAbove m t = true) :
    namesAbove n t = true := by
  cases t with
  | nil => rfl
  | cons e rest =>
    simp only [namesAbove, Bool.and_eq_true] at h ⊢
    exact ⟨nameLt_trans hnm h.1, h.2⟩

theorem namesAbove_symSet {l n : Text} {k : Slot} {t : SymTab} (hl : nameLt l n = true)
    (h : namesAbove l t = true) : namesAbove l (symSet t n k) = true := by
  induction t generalizing l with
  | nil => simp [symSet, namesAbove, hl]
  | cons e rest ih =>
    obtain ⟨m, j⟩ := e
    simp only [namesAbove, Bool.and_eq_true] at h
    by_cases hmn : m = n
    · subst hmn
      simp [symSet, namesAbove, h.1, h.2]
    · cases hlt : nameLt n m
      · simp only [symSet, hmn, hlt, if_false, Bool.false_eq_true, namesAbove, Bool.and_eq_true]
        exact ⟨h.1, ih (nameLt_total (Ne.symm hmn) hlt) h.2⟩
      · simp only [symSet, hmn, hlt, if_false, if_true, namesAbove, Bool.and_eq_true]
        exact ⟨hl, trivial, h.2⟩

/-- A binding keeps the table's canonical form. -/
theorem SymTab.wf_symSet {t : SymTab} {n : Text} {k : Slot} (h : SymTab.wf t = true) :
    SymTab.wf (symSet t n k) = true := by
  cases t with
  | nil => rfl
  | cons e rest =>
    obtain ⟨m, j⟩ := e
    simp only [SymTab.wf] at h
    by_cases hmn : m = n
    · subst hmn
      simpa [symSet, SymTab.wf] using h
    · cases hlt : nameLt n m
      · simp only [symSet, hmn, hlt, if_false, Bool.false_eq_true, SymTab.wf]
        exact namesAbove_symSet (nameLt_total (Ne.symm hmn) hlt) h
      · simp only [symSet, hmn, hlt, if_false, if_true, SymTab.wf, namesAbove, Bool.and_eq_true]
        exact ⟨trivial, h⟩

theorem symGet_of_namesAbove {n : Text} {t : SymTab} (h : namesAbove n t = true) : symGet t n = none := by
  induction t generalizing n with
  | nil => rfl
  | cons e rest ih =>
    obtain ⟨m, j⟩ := e
    simp only [namesAbove, Bool.and_eq_true] at h
    have hmn : m ≠ n := by
      rintro rfl
      simp [nameLt_irrefl] at h
    rw [symGet, if_neg hmn]
    exact ih (namesAbove_trans h.1 h.2)

/-- In canonical form a listed entry is what its name reads. -/
theorem symGet_of_mem {t : SymTab} {e : Text × Slot} (h : SymTab.wf t = true) (he : e ∈ t) :
    symGet t e.1 = some e.2 := by
  induction t with
  | nil => simp at he
  | cons f rest ih =>
    obtain ⟨m, j⟩ := f
    simp only [SymTab.wf] at h
    have hrest : SymTab.wf rest = true := by
      cases rest with
      | nil => rfl
      | cons g rest' =>
        simp only [namesAbove, Bool.and_eq_true] at h
        exact h.2
    rcases List.mem_cons.mp he with rfl | he
    · simp [symGet]
    · have hg := ih hrest he
      have hm : m ≠ e.1 := by
        rintro rfl
        rw [symGet_of_namesAbove h] at hg
        cases hg
      rw [symGet, if_neg hm, hg]

/-! ### Slots stay unique -/

/-- A binding to an unclaimed slot keeps the slots of the table distinct (R105). -/
theorem nodup_symSet {t : SymTab} {n : Text} {k : Slot} (h : (t.map Prod.snd).Nodup) (hk : ∀ e ∈ t, e.2 ≠ k) :
    ((symSet t n k).map Prod.snd).Nodup := by
  induction t with
  | nil => simp [symSet]
  | cons e rest ih =>
    obtain ⟨m, j⟩ := e
    have hkrest : ∀ f ∈ rest, f.2 ≠ k := fun f hf => hk f (List.mem_cons_of_mem _ hf)
    have hknot : k ∉ rest.map Prod.snd := by
      intro hmem
      obtain ⟨f, hf, hfk⟩ := List.mem_map.mp hmem
      exact hkrest f hf hfk
    simp only [List.map_cons, List.nodup_cons] at h
    by_cases hmn : m = n
    · simp only [symSet, if_pos hmn, List.map_cons, List.nodup_cons]
      exact ⟨hknot, h.2⟩
    · cases hlt : nameLt n m
      · simp only [symSet, hmn, hlt, if_false, Bool.false_eq_true, List.map_cons, List.nodup_cons]
        refine ⟨fun hmem => ?_, ih h.2 hkrest⟩
        obtain ⟨f, hf, hfj⟩ := List.mem_map.mp hmem
        rcases mem_symSet hf with rfl | hf
        · exact hk (m, j) (List.mem_cons_self ..) hfj.symm
        · exact h.1 (List.mem_map.mpr ⟨f, hf, hfj⟩)
      · simp only [symSet, hmn, hlt, if_false, if_true, List.map_cons, List.nodup_cons]
        refine ⟨fun hmem => ?_, h⟩
        rcases List.mem_cons.mp hmem with rfl | hmem
        · exact hk (m, k) (List.mem_cons_self ..) rfl
        · exact hknot hmem

end Sys2Proof.Machine
end

