-- ==== Sys2Proof/Laws/Ops.lean ====
section
/-! SUPPORT. What each shared operation can do, said once: value-store access, program reads, free-slot search, operand
resolution and literals. -/

namespace Sys2Proof.Machine

/-! ### The value store -/

theorem memRead_memWrite_eq {s : State} (h : Memory.wf s.store = true) (k : Slot) (v : Word) :
    memRead (memWrite s k v) k = v :=
  cellGet_cellSet_eq h

theorem memRead_memWrite_ne {s : State} {j k : Slot} (hne : j ≠ k) (v : Word) :
    memRead (memWrite s k v) j = memRead s j :=
  cellGet_cellSet_ne fun h => hne (Fin.ext h)

theorem Memory.wf_memWrite {s : State} (h : Memory.wf s.store = true) (k : Slot) (v : Word) :
    Memory.wf (memWrite s k v).store = true :=
  cellsWf_cellSet h (Nat.zero_le _) k.isLt

/-- Two value stores in canonical form that read alike in every slot are equal data. -/
theorem Memory.ext {s t : State} (hs : Memory.wf s.store = true) (ht : Memory.wf t.store = true)
    (h : ∀ k, memRead s k = memRead t k) : s.store = t.store := by
  refine cells_ext hs ht fun k => ?_
  by_cases hk : k < 128
  · exact h ⟨k, hk⟩
  · have hout : ∀ {m : Memory}, Memory.wf m = true → cellGet storeDefault m k = storeDefault := by
      intro m hm
      by_contra hne
      exact hk (cellGet_of_mem hm (mem_of_cellGet_ne hne)).2.2.1
    rw [hout hs, hout ht]

/-! ### The free-slot search -/

theorem claimed_iff {s : State} {k : Slot} : claimed s k = true ↔ ∃ e ∈ s.sym, e.2 = k := by
  simp [claimed]

theorem vacant_iff {s : State} {k : Slot} : vacant s k = true ↔
    (s.params.decPolicy = .programOccupancy → (progRead s k.val).present = false) ∧ ∀ e ∈ s.sym, e.2 ≠ k := by
  unfold vacant
  cases h : s.params.decPolicy <;> simp [claimed]

theorem mem_finRange_split (k : Slot) : ∃ before after, List.finRange 128 = before ++ k :: after ∧ ∀ j ∈ before, j < k := by
  obtain ⟨before, after, hsplit⟩ := List.append_of_mem (List.mem_finRange k)
  refine ⟨before, after, hsplit, fun j hj => ?_⟩
  have hsorted : (List.finRange 128).Pairwise (· < ·) := List.pairwise_lt_finRange 128
  rw [hsplit, List.pairwise_append] at hsorted
  exact hsorted.2.2 j hj k (List.mem_cons_self ..)

/-- `FreeSlot()` answers the lowest vacant slot (R101, R102). -/
theorem freeSlot_eq_some {s : State} {k : Slot} :
    freeSlot s = some k ↔ vacant s k = true ∧ ∀ j, j < k → vacant s j = false := by
  constructor
  · intro h
    obtain ⟨hk, before, after, hsplit, hbefore⟩ := List.find?_eq_some_iff_append.mp h
    refine ⟨hk, fun j hj => ?_⟩
    have hsorted : (List.finRange 128).Pairwise (· < ·) := List.pairwise_lt_finRange 128
    have hmem : j ∈ before ++ k :: after := hsplit ▸ List.mem_finRange j
    rw [hsplit, List.pairwise_append, List.pairwise_cons] at hsorted
    rcases List.mem_append.mp hmem with hj' | hj'
    · simpa using hbefore j hj'
    · rcases List.mem_cons.mp hj' with rfl | hj'
      · exact absurd hj (lt_irrefl _)
      · exact absurd (hsorted.2.1.1 j hj') (not_lt.mpr hj.le)
  · rintro ⟨hk, hlow⟩
    obtain ⟨before, after, hsplit, hlt⟩ := mem_finRange_split k
    exact List.find?_eq_some_iff_append.mpr ⟨hk, before, after, hsplit, fun j hj => by simp [hlow j (hlt j hj)]⟩

/-- `FreeSlot()` answers none exactly where no slot is vacant (R101, R103). -/
theorem freeSlot_eq_none {s : State} : freeSlot s = none ↔ ∀ k, vacant s k = false := by
  simp [freeSlot, List.find?_eq_none]

/-! ### Operands -/

/-- The two ways `Resolve(n)` yields a slot (R110). -/
theorem resolve_eq_some {s : State} {n : Text} {k : Slot} : resolve s n = some k ↔
    symGet s.sym n = some k ∨ (symGet s.sym n = none ∧ s.params.undeclared = .legacySlot0 ∧ k = 0) := by
  unfold resolve
  cases h : symGet s.sym n with
  | some j => simp
  | none => cases h' : s.params.undeclared <;> simp [eq_comm]

/-- The one way it raises UndeclaredSymbol (R110). -/
theorem resolve_eq_none {s : State} {n : Text} : resolve s n = none ↔
    symGet s.sym n = none ∧ s.params.undeclared = .fault := by
  unfold resolve
  cases h : symGet s.sym n with
  | some j => simp
  | none => cases h' : s.params.undeclared <;> simp

theorem withSlot_of_some {s : State} {n : Text} {k : Slot} (h : resolve s n = some k) (f : Slot → State) :
    withSlot s n f = f k := by
  simp [withSlot, h]

theorem withSlot_of_none {s : State} {n : Text} (h : resolve s n = none) (f : Slot → State) :
    withSlot s n f = raise s .undeclaredSymbol (some n) := by
  simp [withSlot, h]

theorem withLiteral_of_some {s : State} {t : Text} {v : Word} (h : parseInt s.params t = some v)
    (f : Word → State) : withLiteral s t f = f v := by
  simp [withLiteral, h]

theorem withLiteral_of_none {s : State} {t : Text} (h : parseInt s.params t = none) (f : Word → State) :
    withLiteral s t f = raise s .malformedLiteral (some t) := by
  simp [withLiteral, h]

/-- What an instruction with a name operand can do. -/
theorem withSlot_cases (s : State) (n : Text) (f : Slot → State) :
    (∃ k, resolve s n = some k ∧ withSlot s n f = f k) ∨
      (resolve s n = none ∧ withSlot s n f = raise s .undeclaredSymbol (some n)) := by
  cases h : resolve s n with
  | some k => exact .inl ⟨k, rfl, withSlot_of_some h f⟩
  | none => exact .inr ⟨rfl, withSlot_of_none h f⟩

/-- What an instruction with a literal operand can do. -/
theorem withLiteral_cases (s : State) (t : Text) (f : Word → State) :
    (∃ v, parseInt s.params t = some v ∧ withLiteral s t f = f v) ∨
      (parseInt s.params t = none ∧ withLiteral s t f = raise s .malformedLiteral (some t)) := by
  cases h : parseInt s.params t with
  | some v => exact .inl ⟨v, rfl, withLiteral_of_some h f⟩
  | none => exact .inr ⟨rfl, withLiteral_of_none h f⟩

/-- A literal's value lies in the literal range (R66). -/
theorem parseInt_range {p : Params} {t : Text} {v : Word} (h : parseInt p t = some v) :
    p.litMin.toInt ≤ v.toInt ∧ v.toInt ≤ p.litMax.toInt := by
  unfold parseInt at h
  cases hs : parseSigned t with
  | none => simp [hs] at h
  | some w =>
    simp only [hs] at h
    split at h
    · cases h
    · rename_i hr
      push Not at hr
      obtain rfl := Option.some.inj h
      have hmin := BitVec.le_toInt p.litMin
      have hmax := BitVec.toInt_lt (x := p.litMax)
      have hw : (BitVec.ofInt 64 w).toInt = w := by
        rw [BitVec.toInt_ofInt]
        exact Int.bmod_eq_of_le (by norm_num at *; omega) (by norm_num at *; omega)
      rw [hw]
      exact hr

/-! ### The ADD unit -/

/-- The four branches of R141, each with its condition. -/
theorem addUnit_cases (a b : Word) (z o : Bool) :
    (exactSum a b ≤ Config.addLo ∧ addUnit a b z o = ⟨a, z, true⟩) ∨
    (Config.addLo < exactSum a b ∧ Config.addHi ≤ exactSum a b ∧ addUnit a b z o = ⟨a, z, true⟩) ∨
    (exactSum a b = 0 ∧ addUnit a b z o = ⟨0, true, o⟩) ∨
    (Config.addLo < exactSum a b ∧ exactSum a b < Config.addHi ∧ exactSum a b ≠ 0 ∧
      addUnit a b z o = ⟨BitVec.ofInt 64 (exactSum a b), false, false⟩) := by
  unfold addUnit
  split
  · exact .inl ⟨‹_›, rfl⟩
  · split
    · exact .inr (.inl ⟨by omega, ‹_›, rfl⟩)
    · split
      · exact .inr (.inr (.inl ⟨‹_›, rfl⟩))
      · exact .inr (.inr (.inr ⟨by omega, by omega, ‹_›, rfl⟩))

/-- An in-range sum is written exactly (R143). -/
theorem toInt_ofInt_sum {r : Int} (hlo : Config.addLo < r) (hhi : r < Config.addHi) :
    (BitVec.ofInt 64 r).toInt = r := by
  simp only [Config.addLo, Config.addHi] at hlo hhi
  rw [BitVec.toInt_ofInt]
  exact Int.bmod_eq_of_le (by norm_num; omega) (by norm_num; omega)

end Sys2Proof.Machine
end

