-- ==== Sys2Proof/Laws/Exec.lean ====
section
/-! SUPPORT. What one instruction can do, said once: `exec` never stops, and its next state is either the fault entry or
the one update its rule gives. -/

namespace Sys2Proof.Machine

/-- When an instruction raises its own fault, and which (R200, R205). -/
def Raises (i : Instr) (s : State) (kind : FaultKind) (info : Option Text) : Prop :=
  match i with
  | .dec n => freeSlot s = none ∧ kind = .slotExhausted ∧ info = some n
  | .lda n => resolve s n = none ∧ kind = .undeclaredSymbol ∧ info = some n
  | .ldb n => resolve s n = none ∧ kind = .undeclaredSymbol ∧ info = some n
  | .ldi l => parseInt s.params l = none ∧ kind = .malformedLiteral ∧ info = some l
  | .str n => resolve s n = none ∧ kind = .undeclaredSymbol ∧ info = some n
  | .xch   => False
  | .jmp t => parseInt s.params t = none ∧ kind = .malformedLiteral ∧ info = some t
  | .jzs t => parseInt s.params t = none ∧ kind = .malformedLiteral ∧ info = some t
  | .jvs t => parseInt s.params t = none ∧ kind = .malformedLiteral ∧ info = some t
  | .add   => False
  | .hlt   => False

/-- The state an instruction leaves when it raises no fault. -/
def Completes (i : Instr) (s t : State) : Prop :=
  match i with
  | .dec n => ∃ k, freeSlot s = some k ∧ t = advance (bindSym s n k)
  | .lda n => ∃ k, resolve s n = some k ∧ t = advance (setA s (memRead s k))
  | .ldb n => ∃ k, resolve s n = some k ∧ t = advance (setB s (memRead s k))
  | .ldi l => ∃ v, parseInt s.params l = some v ∧ t = advance (setA s v)
  | .str n => ∃ k, resolve s n = some k ∧ t = advance (memWrite s k s.regA)
  | .xch   => t = advance (setB (setA s s.regB) s.regA)
  | .jmp l => ∃ v, parseInt s.params l = some v ∧ t = setPc s v
  | .jzs l => ∃ v, parseInt s.params l = some v ∧ t = if s.zf then setPc s v else advance s
  | .jvs l => ∃ v, parseInt s.params l = some v ∧ t = if s.ovf then setPc s v else advance s
  | .add   => ∃ r, r = addUnit s.regA s.regB s.zf s.ovf ∧ t = advance (setFlags (setA s r.regA) r.zf r.ovf)
  | .hlt   => t = setMode s .halted

/-- The inversion lemma of `exec`. -/
theorem exec_cases {i : Instr} {s t : State} (h : exec i s = .next t) :
    (∃ kind info, Raises i s kind info ∧ t = raise s kind info) ∨ Completes i s t := by
  cases i with
  | dec n =>
    simp only [exec, execDec] at h
    split at h
    · exact .inr ⟨_, ‹_›, (Host.Outcome.next.inj h).symm⟩
    · exact .inl ⟨_, _, ⟨‹_›, rfl, rfl⟩, (Host.Outcome.next.inj h).symm⟩
  | lda n =>
    obtain rfl := Host.Outcome.next.inj h
    obtain ⟨k, hk, heq⟩ | ⟨hk, heq⟩ := withSlot_cases s n fun k => advance (setA s (memRead s k))
    · exact .inr ⟨k, hk, heq⟩
    · exact .inl ⟨_, _, ⟨hk, rfl, rfl⟩, heq⟩
  | ldb n =>
    obtain rfl := Host.Outcome.next.inj h
    obtain ⟨k, hk, heq⟩ | ⟨hk, heq⟩ := withSlot_cases s n fun k => advance (setB s (memRead s k))
    · exact .inr ⟨k, hk, heq⟩
    · exact .inl ⟨_, _, ⟨hk, rfl, rfl⟩, heq⟩
  | ldi l =>
    obtain rfl := Host.Outcome.next.inj h
    obtain ⟨v, hv, heq⟩ | ⟨hv, heq⟩ := withLiteral_cases s l fun v => advance (setA s v)
    · exact .inr ⟨v, hv, heq⟩
    · exact .inl ⟨_, _, ⟨hv, rfl, rfl⟩, heq⟩
  | str n =>
    obtain rfl := Host.Outcome.next.inj h
    obtain ⟨k, hk, heq⟩ | ⟨hk, heq⟩ := withSlot_cases s n fun k => advance (memWrite s k s.regA)
    · exact .inr ⟨k, hk, heq⟩
    · exact .inl ⟨_, _, ⟨hk, rfl, rfl⟩, heq⟩
  | xch => exact .inr (Host.Outcome.next.inj h).symm
  | jmp l =>
    obtain rfl := Host.Outcome.next.inj h
    obtain ⟨v, hv, heq⟩ | ⟨hv, heq⟩ := withLiteral_cases s l fun v => setPc s v
    · exact .inr ⟨v, hv, heq⟩
    · exact .inl ⟨_, _, ⟨hv, rfl, rfl⟩, heq⟩
  | jzs l =>
    obtain rfl := Host.Outcome.next.inj h
    obtain ⟨v, hv, heq⟩ | ⟨hv, heq⟩ := withLiteral_cases s l fun v => if s.zf then setPc s v else advance s
    · exact .inr ⟨v, hv, heq⟩
    · exact .inl ⟨_, _, ⟨hv, rfl, rfl⟩, heq⟩
  | jvs l =>
    obtain rfl := Host.Outcome.next.inj h
    obtain ⟨v, hv, heq⟩ | ⟨hv, heq⟩ := withLiteral_cases s l fun v => if s.ovf then setPc s v else advance s
    · exact .inr ⟨v, hv, heq⟩
    · exact .inl ⟨_, _, ⟨hv, rfl, rfl⟩, heq⟩
  | add => exact .inr ⟨_, rfl, (Host.Outcome.next.inj h).symm⟩
  | hlt => exact .inr (Host.Outcome.next.inj h).symm

/-- Every instruction has a next state: a fault of the program is one too (R203). -/
theorem exec_total (i : Instr) (s : State) : ∃ t, exec i s = .next t := by
  cases i with
  | dec n =>
    simp only [exec, execDec]
    split <;> exact ⟨_, rfl⟩
  | _ => exact ⟨_, rfl⟩

/-! ### The shared shape of every completion -/

theorem SameBackground.refl (s : State) : SameBackground s s :=
  ⟨rfl, rfl, rfl, rfl, rfl, rfl, rfl, rfl, rfl, rfl⟩

theorem raise_background (s : State) (kind : FaultKind) (info : Option Text) :
    SameBackground s (raise s kind info) :=
  ⟨rfl, rfl, rfl, rfl, rfl, rfl, rfl, rfl, rfl, rfl⟩

theorem raise_arch (s : State) (kind : FaultKind) (info : Option Text) : SameArch s (raise s kind info) :=
  ⟨rfl, rfl, rfl, rfl, rfl, rfl, rfl⟩

/-- A completed instruction leaves the background as it was, and the fault record and the mode too, but for HLT. -/
theorem Completes.background {i : Instr} {s t : State} (h : Completes i s t) :
    SameBackground s t ∧ t.fault = s.fault ∧ (t.mode = s.mode ∨ i = .hlt ∧ t.mode = .halted) := by
  cases i with
  | dec n => obtain ⟨k, -, rfl⟩ := h; exact ⟨⟨rfl, rfl, rfl, rfl, rfl, rfl, rfl, rfl, rfl, rfl⟩, rfl, .inl rfl⟩
  | lda n => obtain ⟨k, -, rfl⟩ := h; exact ⟨⟨rfl, rfl, rfl, rfl, rfl, rfl, rfl, rfl, rfl, rfl⟩, rfl, .inl rfl⟩
  | ldb n => obtain ⟨k, -, rfl⟩ := h; exact ⟨⟨rfl, rfl, rfl, rfl, rfl, rfl, rfl, rfl, rfl, rfl⟩, rfl, .inl rfl⟩
  | ldi l => obtain ⟨k, -, rfl⟩ := h; exact ⟨⟨rfl, rfl, rfl, rfl, rfl, rfl, rfl, rfl, rfl, rfl⟩, rfl, .inl rfl⟩
  | str n => obtain ⟨k, -, rfl⟩ := h; exact ⟨⟨rfl, rfl, rfl, rfl, rfl, rfl, rfl, rfl, rfl, rfl⟩, rfl, .inl rfl⟩
  | xch => obtain rfl := h; exact ⟨⟨rfl, rfl, rfl, rfl, rfl, rfl, rfl, rfl, rfl, rfl⟩, rfl, .inl rfl⟩
  | jmp l => obtain ⟨v, -, rfl⟩ := h; exact ⟨⟨rfl, rfl, rfl, rfl, rfl, rfl, rfl, rfl, rfl, rfl⟩, rfl, .inl rfl⟩
  | jzs l =>
    obtain ⟨v, -, rfl⟩ := h
    split <;> exact ⟨⟨rfl, rfl, rfl, rfl, rfl, rfl, rfl, rfl, rfl, rfl⟩, rfl, .inl rfl⟩
  | jvs l =>
    obtain ⟨v, -, rfl⟩ := h
    split <;> exact ⟨⟨rfl, rfl, rfl, rfl, rfl, rfl, rfl, rfl, rfl, rfl⟩, rfl, .inl rfl⟩
  | add => obtain ⟨r, -, rfl⟩ := h; exact ⟨⟨rfl, rfl, rfl, rfl, rfl, rfl, rfl, rfl, rfl, rfl⟩, rfl, .inl rfl⟩
  | hlt => obtain rfl := h; exact ⟨⟨rfl, rfl, rfl, rfl, rfl, rfl, rfl, rfl, rfl, rfl⟩, rfl, .inr ⟨rfl, rfl⟩⟩

/-- No instruction writes the background. -/
theorem exec_background {i : Instr} {s t : State} (h : exec i s = .next t) : SameBackground s t := by
  obtain ⟨kind, info, -, rfl⟩ | hc := exec_cases h
  · exact raise_background s kind info
  · exact hc.background.1

/-- What an instruction may do to the value store and the symbol table: DEC binds, STR writes, nothing else does. -/
theorem exec_data {i : Instr} {s t : State} (h : exec i s = .next t) :
    (t.store = s.store ∧ t.sym = s.sym) ∨
    (∃ n k, i = .dec n ∧ freeSlot s = some k ∧ t.store = s.store ∧ t.sym = symSet s.sym n k) ∨
    (∃ n k, i = .str n ∧ resolve s n = some k ∧ t.store = (memWrite s k s.regA).store ∧ t.sym = s.sym) := by
  obtain ⟨kind, info, -, rfl⟩ | hc := exec_cases h
  · exact .inl ⟨rfl, rfl⟩
  · cases i with
    | dec n => obtain ⟨k, hk, rfl⟩ := hc; exact .inr (.inl ⟨n, k, rfl, hk, rfl, rfl⟩)
    | lda n => obtain ⟨k, -, rfl⟩ := hc; exact .inl ⟨rfl, rfl⟩
    | ldb n => obtain ⟨k, -, rfl⟩ := hc; exact .inl ⟨rfl, rfl⟩
    | ldi l => obtain ⟨k, -, rfl⟩ := hc; exact .inl ⟨rfl, rfl⟩
    | str n => obtain ⟨k, hk, rfl⟩ := hc; exact .inr (.inr ⟨n, k, rfl, hk, rfl, rfl⟩)
    | xch => obtain rfl := hc; exact .inl ⟨rfl, rfl⟩
    | jmp l => obtain ⟨v, -, rfl⟩ := hc; exact .inl ⟨rfl, rfl⟩
    | jzs l => obtain ⟨v, -, rfl⟩ := hc; split <;> exact .inl ⟨rfl, rfl⟩
    | jvs l => obtain ⟨v, -, rfl⟩ := hc; split <;> exact .inl ⟨rfl, rfl⟩
    | add => obtain ⟨r, -, rfl⟩ := hc; exact .inl ⟨rfl, rfl⟩
    | hlt => obtain rfl := hc; exact .inl ⟨rfl, rfl⟩

/-! ### No instruction reads the engine -/

/-- `s` with other engine fields and another queue of commands. -/
def withEngine (s : State) (m : Mode) (r : Nat) (p c : Bool) (q : List Command) : State :=
  { s with mode := m, runCount := r, pauseEnabled := p, checkpoint := c, commands := q }

theorem freeSlot_congr {s s' : State} (hprog : s'.prog = s.prog) (hsym : s'.sym = s.sym)
    (hparams : s'.params = s.params) : freeSlot s' = freeSlot s := by
  have : vacant s' = vacant s := by
    funext k
    simp [vacant, claimed, progRead, hprog, hsym, hparams]
  simp [freeSlot, this]

theorem resolve_congr {s s' : State} (n : Text) (hsym : s'.sym = s.sym) (hparams : s'.params = s.params) :
    resolve s' n = resolve s n := by
  simp [resolve, hsym, hparams]

/-- An instruction does the same whatever the engine's fields are: it keeps the mode it finds, or it halts or faults
(R35, R153, R203). -/
theorem exec_withEngine {i : Instr} {s t : State} (h : exec i s = .next t) :
    (t.mode = s.mode ∧
      ∀ m r p c q, exec i (withEngine s m r p c q) = .next (withEngine t m r p c q)) ∨
    ((t.mode = .halted ∨ t.mode = .faulted) ∧
      ∀ m r p c q, exec i (withEngine s m r p c q) = .next (withEngine t t.mode r p c q)) := by
  obtain ⟨kind, info, hr, rfl⟩ | hc := exec_cases h
  · refine .inr ⟨.inr rfl, fun m r p c q => ?_⟩
    cases i with
    | dec n =>
      obtain ⟨hf, rfl, rfl⟩ := hr
      simp only [exec, execDec, (freeSlot_congr rfl rfl rfl : freeSlot (withEngine s m r p c q) = freeSlot s), hf]
      rfl
    | lda n => obtain ⟨hf, rfl, rfl⟩ := hr; exact congrArg Host.Outcome.next (withSlot_of_none (s := withEngine s m r p c q) hf _)
    | ldb n => obtain ⟨hf, rfl, rfl⟩ := hr; exact congrArg Host.Outcome.next (withSlot_of_none (s := withEngine s m r p c q) hf _)
    | ldi l => obtain ⟨hf, rfl, rfl⟩ := hr; exact congrArg Host.Outcome.next (withLiteral_of_none (s := withEngine s m r p c q) hf _)
    | str n => obtain ⟨hf, rfl, rfl⟩ := hr; exact congrArg Host.Outcome.next (withSlot_of_none (s := withEngine s m r p c q) hf _)
    | jmp l => obtain ⟨hf, rfl, rfl⟩ := hr; exact congrArg Host.Outcome.next (withLiteral_of_none (s := withEngine s m r p c q) hf _)
    | jzs l => obtain ⟨hf, rfl, rfl⟩ := hr; exact congrArg Host.Outcome.next (withLiteral_of_none (s := withEngine s m r p c q) hf _)
    | jvs l => obtain ⟨hf, rfl, rfl⟩ := hr; exact congrArg Host.Outcome.next (withLiteral_of_none (s := withEngine s m r p c q) hf _)
    | xch => exact hr.elim
    | add => exact hr.elim
    | hlt => exact hr.elim
  · cases i with
    | dec n =>
      obtain ⟨k, hk, rfl⟩ := hc
      refine .inl ⟨rfl, fun m r p c q => ?_⟩
      simp only [exec, execDec, (freeSlot_congr rfl rfl rfl : freeSlot (withEngine s m r p c q) = freeSlot s), hk]
      rfl
    | lda n =>
      obtain ⟨k, hk, rfl⟩ := hc
      exact .inl ⟨rfl, fun m r p c q => congrArg Host.Outcome.next (withSlot_of_some (s := withEngine s m r p c q) hk _)⟩
    | ldb n =>
      obtain ⟨k, hk, rfl⟩ := hc
      exact .inl ⟨rfl, fun m r p c q => congrArg Host.Outcome.next (withSlot_of_some (s := withEngine s m r p c q) hk _)⟩
    | ldi l =>
      obtain ⟨v, hv, rfl⟩ := hc
      exact .inl ⟨rfl, fun m r p c q => congrArg Host.Outcome.next (withLiteral_of_some (s := withEngine s m r p c q) hv _)⟩
    | str n =>
      obtain ⟨k, hk, rfl⟩ := hc
      exact .inl ⟨rfl, fun m r p c q => congrArg Host.Outcome.next (withSlot_of_some (s := withEngine s m r p c q) hk _)⟩
    | xch => obtain rfl := hc; exact .inl ⟨rfl, fun _ _ _ _ _ => rfl⟩
    | jmp l =>
      obtain ⟨v, hv, rfl⟩ := hc
      exact .inl ⟨rfl, fun m r p c q => congrArg Host.Outcome.next (withLiteral_of_some (s := withEngine s m r p c q) hv _)⟩
    | jzs l =>
      obtain ⟨v, hv, rfl⟩ := hc
      refine .inl ⟨by split <;> rfl, fun m r p c q => ?_⟩
      refine (congrArg Host.Outcome.next (withLiteral_of_some (s := withEngine s m r p c q) hv _)).trans ?_
      cases hz : s.zf <;> simp [withEngine, hz, setPc, advance]
    | jvs l =>
      obtain ⟨v, hv, rfl⟩ := hc
      refine .inl ⟨by split <;> rfl, fun m r p c q => ?_⟩
      refine (congrArg Host.Outcome.next (withLiteral_of_some (s := withEngine s m r p c q) hv _)).trans ?_
      cases ho : s.ovf <;> simp [withEngine, ho, setPc, advance]
    | add => obtain ⟨r, rfl, rfl⟩ := hc; exact .inl ⟨rfl, fun _ _ _ _ _ => rfl⟩
    | hlt => obtain rfl := hc; exact .inr ⟨.inl rfl, fun _ _ _ _ _ => rfl⟩

end Sys2Proof.Machine
end

