-- ==== Sys2Proof/Laws/Engine.lean ====
section
/-! SUPPORT. What one step of the engine can do, said once: the inversion lemmas of the fetch, of `execOne` and of
`step`. -/

namespace Sys2Proof.Machine

/-- `fetch` answers an instruction exactly where `pc` is in range and the slot's record decodes to it (R151). -/
theorem fetch_eq_instr {s : State} {i : Instr} :
    fetch s = .instr i ↔ pcInRange s = true ∧ decode (progRead s s.pc.toNat) = .instr i := by
  unfold fetch fetchRecord
  split
  · rename_i hin
    cases hd : decode (progRead s s.pc.toNat) <;> simp [hin]
  · rename_i hin
    simp [hin]

/-- The inversion lemma of `execOne`: a fetch fault, or an instruction with what follows it (R152). -/
theorem execOne_cases {s u : State} (h : execOne s = .next u) :
    (∃ kind, fetch s = .fault kind ∧ u = raise s kind none) ∨
    (∃ i t, fetch s = .instr i ∧ exec i s = .next t ∧ u = afterExec i t) := by
  unfold execOne at h
  cases hf : fetch s with
  | fault kind => exact .inl ⟨kind, rfl, by simpa [hf] using h.symm⟩
  | refused r => simp [hf] at h
  | instr i =>
    obtain ⟨t, ht⟩ := exec_total i s
    exact .inr ⟨i, t, rfl, ht, by simpa [hf, ht] using h.symm⟩

/-- Without a refused record, `execOne` has a next state. -/
theorem execOne_of_instr {s t : State} {i : Instr} (hf : fetch s = .instr i) (ht : exec i s = .next t) :
    execOne s = .next (afterExec i t) := by
  simp [execOne, hf, ht]

theorem execOne_of_fault {s : State} {kind : FaultKind} (hf : fetch s = .fault kind) :
    execOne s = .next (raise s kind none) := by
  simp [execOne, hf]

/-- The inversion lemma of `step`. -/
theorem step_cases {s t : State} (h : step s = .next t) :
    ((s.mode = .idle ∨ s.mode = .stepping) ∧
      ((s.commands = [] ∧ t = s) ∨
       (s.commands.head? = some .step ∧ ∃ u, execOne (dropCommand s) = .next u ∧ t = settleStep u) ∨
       (s.commands.head? = some .run ∧ t = startRun (dropCommand s)) ∨
       (s.commands.head? = some .quit ∧ t = quit (dropCommand s)))) ∨
    (s.mode = .running ∧
      ((s.checkpoint = true ∧ t = takeAnswer s) ∨
       (s.checkpoint = false ∧ ∃ u, execOne s = .next u ∧ t = settleRun u))) ∨
    ((s.mode = .halted ∨ s.mode = .faulted) ∧
      ((s.commands = [] ∧ t = s) ∨
       ((s.commands.head? = some .step ∨ s.commands.head? = some .run) ∧ t = dropCommand s) ∨
       (s.commands.head? = some .quit ∧ t = quit (dropCommand s)))) := by
  have hready : readyStep s = .next t →
      ((s.commands = [] ∧ t = s) ∨
       (s.commands.head? = some .step ∧ ∃ u, execOne (dropCommand s) = .next u ∧ t = settleStep u) ∨
       (s.commands.head? = some .run ∧ t = startRun (dropCommand s)) ∨
       (s.commands.head? = some .quit ∧ t = quit (dropCommand s))) := by
    intro h
    unfold readyStep at h
    split at h
    · exact .inl ⟨‹_›, (Host.Outcome.next.inj h).symm⟩
    · rename_i hc
      unfold singleStep at h
      split at h
      · exact .inr (.inl ⟨by simp [hc], _, ‹_›, (Host.Outcome.next.inj h).symm⟩)
      · cases h
      · cases h
    · rename_i hc
      exact .inr (.inr (.inl ⟨by simp [hc], (Host.Outcome.next.inj h).symm⟩))
    · rename_i hc
      exact .inr (.inr (.inr ⟨by simp [hc], (Host.Outcome.next.inj h).symm⟩))
  have hended : endedStep s = .next t →
      ((s.commands = [] ∧ t = s) ∨
       ((s.commands.head? = some .step ∨ s.commands.head? = some .run) ∧ t = dropCommand s) ∨
       (s.commands.head? = some .quit ∧ t = quit (dropCommand s))) := by
    intro h
    unfold endedStep at h
    split at h
    · exact .inl ⟨‹_›, (Host.Outcome.next.inj h).symm⟩
    · rename_i hc
      exact .inr (.inl ⟨.inl (by simp [hc]), (Host.Outcome.next.inj h).symm⟩)
    · rename_i hc
      exact .inr (.inl ⟨.inr (by simp [hc]), (Host.Outcome.next.inj h).symm⟩)
    · rename_i hc
      exact .inr (.inr ⟨by simp [hc], (Host.Outcome.next.inj h).symm⟩)
  unfold step engineStep at h
  cases hm : s.mode <;> simp only [hm] at h
  · exact .inl ⟨.inl rfl, hready h⟩
  · exact .inl ⟨.inr rfl, hready h⟩
  · refine .inr (.inl ⟨rfl, ?_⟩)
    unfold runningStep at h
    split at h
    · exact .inl ⟨‹_›, (Host.Outcome.next.inj h).symm⟩
    · rename_i hc
      unfold runIteration at h
      split at h
      · exact .inr ⟨by simpa using hc, _, ‹_›, (Host.Outcome.next.inj h).symm⟩
      · cases h
      · cases h
  · exact .inr (.inr ⟨.inl rfl, hended h⟩)
  · exact .inr (.inr ⟨.inr rfl, hended h⟩)
  · cases h

/-! ### Runs -/

/-- A run of `k + 1` steps is a step and a run of `k`. -/
theorem run_succ {s u : State} {k : Nat} : Sys2Proof.core.run (k + 1) s = .next u ↔
    ∃ v, step s = .next v ∧ Sys2Proof.core.run k v = .next u := by
  have hstep : Sys2Proof.core.step s = step s := rfl
  have hrun := Host.Core.run.eq_2 Sys2Proof.core s k
  rw [hstep] at hrun
  cases h : step s with
  | next v => simp only [h] at hrun; rw [hrun]; simp
  | fault r => simp only [h] at hrun; rw [hrun]; simp
  | refused r => simp only [h] at hrun; rw [hrun]; simp

end Sys2Proof.Machine
end

