-- ==== Sys2Proof/Laws/Image.lean ====
section
/-! SUPPORT. Program memory as a loader image: what its slots read, its canonical form, and that no fetch meets a record
without a meaning. -/

namespace Sys2Proof.Machine

/-- Slot `j` of an image whose first record is slot `k` (R68). -/
theorem cellGet_imageCells (k : Nat) (image : List Record) (j : Nat) :
    cellGet Record.empty (imageCells k image) j =
      if j < k then Record.empty else match image[j - k]? with
        | some r => if r.present then r else Record.empty
        | none   => Record.empty := by
  induction image generalizing k with
  | nil => simp [imageCells, cellGet]
  | cons r rest ih =>
    have hsub : ¬ j < k → k ≠ j → j - k = j - (k + 1) + 1 := by omega
    by_cases hp : r.present = true <;> by_cases hk : k = j <;> by_cases hj : j < k <;>
      simp_all [imageCells, cellGet, show ¬ j < k → k ≠ j → ¬ j < k + 1 by omega, show j < k → j < k + 1 by omega]

/-- The cells of an image are in canonical form (R33; log 7). -/
theorem cellsWf_imageCells (k len : Nat) (image : List Record) (h : k + image.length ≤ len) :
    cellsWf Record.empty len k (imageCells k image) = true := by
  induction image generalizing k with
  | nil => rfl
  | cons r rest ih =>
    simp only [List.length_cons] at h
    have hrest := ih (k + 1) (by omega)
    by_cases hp : r.present = true
    · simp only [imageCells, if_pos hp, cellsWf_cons]
      exact ⟨le_refl _, by omega, by rintro rfl; revert hp; decide, hrest⟩
    · simp only [imageCells, if_neg hp]
      exact cellsWf_mono (by omega) hrest

/-- Every listed cell is a record of the image that holds an instruction. -/
theorem mem_imageCells {k : Nat} {image : List Record} {e : Nat × Record} (he : e ∈ imageCells k image) :
    e.2 ∈ image ∧ e.2.present = true := by
  induction image generalizing k with
  | nil => simp [imageCells] at he
  | cons r rest ih =>
    by_cases hp : r.present = true
    · simp only [imageCells, if_pos hp, List.mem_cons] at he
      rcases he with rfl | he
      · simp [hp]
      · simp [ih he]
    · simp only [imageCells, if_neg hp] at he
      simp [ih he]

/-- A load leaves program memory in canonical form (R33, R68). -/
theorem Program.wf_withImage (p : Params) (image : List Record) :
    Program.wf (withImage p image).progLen (withImage p image).prog = true := by
  simp only [Program.wf, Bool.and_eq_true, List.all_eq_true]
  exact ⟨cellsWf_imageCells 0 _ image (by simp [withImage]), fun e he => (mem_imageCells he).2⟩

theorem cellsWf_bound {bound bound' lo : Nat} {m : Program} (hle : bound ≤ bound')
    (h : cellsWf Record.empty bound lo m = true) : cellsWf Record.empty bound' lo m = true := by
  induction m generalizing lo with
  | nil => rfl
  | cons e rest ih =>
    rw [cellsWf_cons] at h ⊢
    exact ⟨h.1, by omega, h.2.2.1, ih h.2.2.2⟩

theorem mem_cellSet {m : Program} {k : Nat} {v : Record} {e : Nat × Record}
    (he : e ∈ cellSet Record.empty m k v) : e ∈ m ∨ (e = (k, v) ∧ v ≠ Record.empty) := by
  induction m with
  | nil => by_cases hv : v = Record.empty <;> simp_all [cellSet]
  | cons c rest ih =>
    obtain ⟨j, w⟩ := c
    simp only [cellSet] at he
    split_ifs at he with h1 h2 h3 h4
    · exact .inl he
    · rcases List.mem_cons.mp he with rfl | he
      · exact .inr ⟨rfl, h2⟩
      · exact .inl he
    · exact .inl (List.mem_cons_of_mem _ he)
    · rcases List.mem_cons.mp he with rfl | he
      · exact .inr ⟨rfl, h4⟩
      · exact .inl (List.mem_cons_of_mem _ he)
    · rcases List.mem_cons.mp he with rfl | he
      · exact .inl List.mem_cons_self
      · exact (ih he).imp (List.mem_cons_of_mem _) id

/-- Placing a record for the next fetch keeps the canonical form (log 9). -/
theorem Program.wf_placeRecord {s : State} (r : Record) (h : Program.wf s.progLen s.prog = true) :
    Program.wf (placeRecord s r).progLen (placeRecord s r).prog = true := by
  have hwf : Program.wf (max s.progLen (fetchSlot s + 1))
      (cellSet Record.empty s.prog (fetchSlot s) (if r.present then r else Record.empty)) = true := by
    simp only [Program.wf, Bool.and_eq_true, List.all_eq_true] at h ⊢
    refine ⟨cellsWf_cellSet (cellsWf_bound (le_max_left _ _) h.1) (by omega) (by omega), fun e he => ?_⟩
    rcases mem_cellSet he with he | ⟨rfl, hv⟩
    · exact h.2 e he
    · by_cases hp : r.present = true
      · simp [hp]
      · simp [hp] at hv
  unfold placeRecord
  dsimp only
  split <;> exact hwf

/-- The reset state's memories are in canonical form. -/
theorem wf_reset : Memory.wf State.reset.store = true ∧ SymTab.wf State.reset.sym = true ∧
    Program.wf State.reset.progLen State.reset.prog = true := ⟨rfl, rfl, rfl⟩

/-- Every slot of a loader image reads a record that the loader may leave there (R71). -/
theorem loadable_progRead {s : State} (h : LoaderImage s) (k : Nat) : loadable (progRead s k) = true := by
  generalize hr : progRead s k = r
  rcases eq_or_ne r Record.empty with he | he
  · subst he; decide
  · have hmem := mem_of_cellGet_ne (m := s.prog) (k := k) (dflt := Record.empty) (by rw [← hr] at he; exact he)
    have hget : cellGet Record.empty s.prog k = r := hr
    rw [hget] at hmem
    exact h.loadable (k, r) hmem

/-- A fetch from a loader image answers an instruction or a fault of the block (R71, R151). -/
theorem fetch_not_refused {s : State} (h : LoaderImage s) (r : Refusal) : fetch s ≠ .refused r := by
  intro hr
  unfold fetch at hr
  split at hr
  · have hl := loadable_progRead h s.pc.toNat
    generalize progRead s s.pc.toNat = x at hr hl
    unfold fetchRecord at hr
    unfold loadable at hl
    cases hd : decode x <;> simp [hd] at hr hl
  · cases hr

end Sys2Proof.Machine
end

