-- ==== Sys2Proof/Laws/PerInstr.lean ====
section
/-! SUPPORT. The statement family DecodeEncode: the decoder reads an instruction's own record back (R63), one lemma per
constructor. -/

namespace Sys2Proof.Laws.DecodeEncode

/-- Decoding the record of `i` gives `i`, whatever its operand. -/
def Statement (i : Instr) : Prop := decode (encode i) = .instr i

/-- A record whose header is `present ++ tag` decodes by the tag table. -/
theorem decode_eq_decodeTag {header : BitVec 5} {operand : Option Text} (tag : BitVec 4)
    (hp : header.getLsbD 4 = true) (ht : header.extractLsb' 0 4 = tag) :
    decode ⟨header, operand⟩ = decodeTag tag operand := by
  simp [decode, Record.present, Record.tag, hp, ht]

theorem dec (n : Text) : Statement (.dec n) := decode_eq_decodeTag (header := 0x10) 0 (by decide) (by decide)
theorem lda (n : Text) : Statement (.lda n) := decode_eq_decodeTag (header := 0x11) 1 (by decide) (by decide)
theorem ldb (n : Text) : Statement (.ldb n) := decode_eq_decodeTag (header := 0x12) 2 (by decide) (by decide)
theorem ldi (l : Text) : Statement (.ldi l) := decode_eq_decodeTag (header := 0x13) 3 (by decide) (by decide)
theorem str (n : Text) : Statement (.str n) := decode_eq_decodeTag (header := 0x14) 4 (by decide) (by decide)
theorem xch : Statement .xch := decode_eq_decodeTag (header := 0x15) 5 (by decide) (by decide)
theorem jmp (t : Text) : Statement (.jmp t) := decode_eq_decodeTag (header := 0x16) 6 (by decide) (by decide)
theorem jzs (t : Text) : Statement (.jzs t) := decode_eq_decodeTag (header := 0x17) 7 (by decide) (by decide)
theorem jvs (t : Text) : Statement (.jvs t) := decode_eq_decodeTag (header := 0x18) 8 (by decide) (by decide)
theorem add : Statement .add := decode_eq_decodeTag (header := 0x19) 9 (by decide) (by decide)
theorem hlt : Statement .hlt := decode_eq_decodeTag (header := 0x1a) 10 (by decide) (by decide)

end Sys2Proof.Laws.DecodeEncode
end

