-- ==== Sys2Proof/Tests/Slice0.lean ====
section
/-! SUPPORT. Small tests: well-formedness, decoding of words written out from the spec's encoding, one step per
instruction with the results of 95_test_vectors.md, and a witness for the hypotheses of every obligation. -/

namespace Sys2Proof.Tests

open Sys2Proof.Machine

/-! ### Helpers -/

/-- The state that an outcome answers meets `p`. -/
def isNext (o : Host.Outcome State Fault Refusal) (p : State → Bool) : Bool :=
  match o with
  | .next t    => p t
  | .fault _   => false
  | .refused _ => false

/-- One step of `s` with instruction `i` placed at `pc`, and a single step commanded. -/
def stepWith (i : Instr) (s : State) (p : State → Bool) : Bool := isNext (step (placeRecord s (encode i))) p

/-- A literal as a word. -/
def w (v : Int) : Word := BitVec.ofInt 64 v

/-- Program P1 of 95_test_vectors.md, loaded. -/
def p1 : State :=
  withImage Params.standard
    [encode (.dec ['x']), encode (.ldi ['5']), encode (.str ['x']), encode .hlt]

/-- P1 with `x` bound to slot 4, which holds 5 (as in V-LS-1, with other registers). -/
def bound : State :=
  { p1 with sym := [(['x'], 4)], store := [(4, 5)], regA := w (-9), regB := 2, pc := 2 }

/-- `bound` under `LegacySlot0`, with slot 0 holding 3 (V-LS-4). -/
def legacy : State :=
  { bound with store := [(0, 3), (4, 5)], params := { Params.standard with undeclared := .legacySlot0 } }

/-- A program of 127 instructions: only slot 127 is free (V-DEC-5). -/
def full127 : State := withImage Params.standard (List.replicate 127 (encode .hlt))

/-- `full127` with the last slot bound to `a` (V-DEC-6). -/
def full127a : State := { full127 with sym := [(['a'], 127)] }

/-- `s` with the operands and flags of an ADD. -/
def addState (a b : Int) (zf ovf : Bool) : State := { p1 with regA := w a, regB := w b, zf := zf, ovf := ovf }

/-- `A`, `ZF`, `OF` after ADD. -/
def addGives (a b : Int) (zf ovf : Bool) (a' : Int) (zf' ovf' : Bool) : Bool :=
  stepWith .add (addState a b zf ovf) fun t =>
    t.regA == w a' && t.regB == w b && t.zf == zf' && t.ovf == ovf' && t.pc == 1

/-- A run in mode `Running` that has counted `n` instructions, at the HLT of P1 or before it. -/
def runningAt (n : Nat) (pc : Word) : State := { p1 with mode := .running, runCount := n, pc := pc }

/-- A run paused at its checkpoint. -/
def paused : State := { runningAt 1000 3 with checkpoint := true }

/-- A fault of kind `kind` with `info` was recorded at `pc`. -/
def faultedWith (kind : FaultKind) (pc : Word) (info : Option Text) (t : State) : Bool :=
  t.mode == .faulted && t.fault == some ⟨kind, pc, info⟩ && t.pc == pc

/-! ### Well-formedness: an ill-formed term for each check -/

theorem test_wf_token_with_space : (Instr.lda ['a', ' ', 'b']).wf = false := by decide
theorem test_wf_token_with_line_feed : (Instr.ldi ['5', '\n']).wf = false := by decide
theorem test_wf_jump_without_separator : (Instr.jmp ['5']).wf = false := by decide
theorem test_wf_jump_with_line_feed : (Instr.jzs [' ', '5', '\n']).wf = false := by decide
theorem test_wf_every_form_refuses :
    [Instr.dec [' '], .lda [' '], .ldb [' '], .ldi [' '], .str [' '], .jmp ['x'], .jzs ['x'], .jvs ['x']].all
      (fun i => !i.wf) = true := by decide

/-! ### Decoding: words written out from R63, and lines from R61 -/

theorem test_decode_dec : decode ⟨0b10000, some ['x']⟩ = .instr (.dec ['x']) := by decide
theorem test_decode_lda : decode ⟨0b10001, some ['x']⟩ = .instr (.lda ['x']) := by decide
theorem test_decode_ldb : decode ⟨0b10010, some ['x']⟩ = .instr (.ldb ['x']) := by decide
theorem test_decode_ldi : decode ⟨0b10011, some ['-', '5']⟩ = .instr (.ldi ['-', '5']) := by decide
theorem test_decode_str : decode ⟨0b10100, some ['x']⟩ = .instr (.str ['x']) := by decide
theorem test_decode_xch : decode ⟨0b10101, none⟩ = .instr .xch := by decide
theorem test_decode_jmp : decode ⟨0b10110, some [' ', '5']⟩ = .instr (.jmp [' ', '5']) := by decide
theorem test_decode_jzs : decode ⟨0b10111, some [' ', '5']⟩ = .instr (.jzs [' ', '5']) := by decide
theorem test_decode_jvs : decode ⟨0b11000, some [' ', '5']⟩ = .instr (.jvs [' ', '5']) := by decide
theorem test_decode_add : decode ⟨0b11001, none⟩ = .instr .add := by decide
theorem test_decode_hlt : decode ⟨0b11010, none⟩ = .instr .hlt := by decide
theorem test_decode_reserved_tags :
    decode ⟨0b11011, none⟩ = .reservedTag 11 ∧ decode ⟨0b11111, some []⟩ = .reservedTag 15 := by decide
theorem test_decode_operand_shape :
    decode ⟨0x11, none⟩ = .operandMissing 1 ∧ decode ⟨0x19, some []⟩ = .operandUnexpected 9 := by decide
theorem test_decode_empty : decode ⟨0b01111, none⟩ = .empty := by decide

/-- The rows of V-LS-10, V-LS-11, V-CT-1 and V-DEC-8, and of R62. -/
theorem test_lines :
    parseLine "LDI  7".toList = ⟨0x13, some []⟩ ∧
    parseLine "LDI 7 comment".toList = ⟨0x13, some ['7']⟩ ∧
    parseLine "JMP 5".toList = ⟨0x16, some [' ', '5']⟩ ∧
    parseLine "DEC".toList = ⟨0x10, some []⟩ ∧
    parseLine "ADD junk".toList = ⟨0x19, none⟩ ∧
    parseLine "dec x".toList = Record.empty ∧ parseLine " HLT".toList = Record.empty ∧
    parseLine [] = Record.empty := by decide

theorem test_lines_split :
    splitLines "LDI 1\r\n\nHLT".toList = ["LDI 1".toList, [], "HLT".toList] ∧ splitLines "HLT\n".toList = ["HLT".toList] ∧
    splitLines [] = [] := by decide

/-- The rows of V-LS-6, V-LS-7, V-LS-9, V-CT-2 and V-CT-6. -/
theorem test_literals :
    ["2147483647", "-2147483648", "007", "-0", "  5", " \t5"].map (fun t => parseInt Params.standard t.toList) =
      [some 2147483647, some (w (-2147483648)), some 7, some 0, some 5, some 5] ∧
    (["2147483648", "-2147483649", "+5", "5x", "0x10", "", " 5 ", "-", " ", "- 5"].all fun t =>
      parseInt Params.standard t.toList == none) = true := by decide

theorem test_table_words :
    decodeTableWord 8 0x11 = some (.lda []) ∧ decodeTableWord 8 0x12 = some (.ldb []) ∧
    decodeTableWord 8 0x16 = some (.jmp []) ∧ decodeTableWord 8 0x18 = some (.jvs []) := by decide

/-! ### One step of each instruction (95_test_vectors.md) -/

/-- V-DEC-1 (P1 from a clean start). -/
theorem test_dec_takes_the_first_slot_after_the_program :
    stepWith (.dec ['x']) p1 (fun t => t.sym == [(['x'], 4)] && t.pc == 1 && t.store == []) = true := by decide

/-- V-DEC-3: a re-declared name gets the next slot, and the value stays in the old one. -/
theorem test_dec_redeclares :
    stepWith (.dec ['x']) bound (fun t => t.sym == [(['x'], 5)] && memRead t 4 == 5) = true := by decide

/-- V-LS-1. -/
theorem test_lda : stepWith (.lda ['x']) bound (fun t => t.regA == 5 && t.regB == 2 && t.pc == 3) = true := by decide

/-- V-LS-3 and V-LS-4. -/
theorem test_lda_undeclared :
    (stepWith (.lda ['q']) bound (faultedWith .undeclaredSymbol 2 (some ['q'])) &&
      stepWith (.lda ['q']) legacy (fun t => t.regA == 3 && t.sym == legacy.sym)) = true := by decide

/-- V-LS-2. -/
theorem test_ldb : stepWith (.ldb ['x']) bound (fun t => t.regB == 5 && t.regA == w (-9)) = true := by decide

/-- V-LS-5: the value is negative. -/
theorem test_ldi : stepWith (.ldi ['-', '5']) bound (fun t => t.regA == w (-5) && t.pc == 3 && !t.zf) = true := by decide

/-- V-LS-9. -/
theorem test_ldi_plus_sign :
    stepWith (.ldi ['+', '5']) bound (faultedWith .malformedLiteral 2 (some ['+', '5'])) = true := by decide

/-- V-LS-12. -/
theorem test_str : stepWith (.str ['x']) bound (fun t => t.store == [(4, w (-9))] && t.pc == 3) = true := by decide

/-- V-LS-13 and V-LS-14. -/
theorem test_str_undeclared :
    (stepWith (.str ['q']) bound (fun t => faultedWith .undeclaredSymbol 2 (some ['q']) t && t.store == bound.store) &&
      stepWith (.str ['q']) legacy (fun t => memRead t 0 == w (-9) && t.sym == legacy.sym)) = true := by decide

/-- V-LS-17: no flag is written. -/
theorem test_xch :
    stepWith .xch (addState 1 2 true true) (fun t => t.regA == 2 && t.regB == 1 && t.zf && t.ovf && t.pc == 1) =
      true := by decide

/-- V-CT-4: a negative target. -/
theorem test_jmp_negative : stepWith (.jmp [' ', '-', '1']) p1 (fun t => t.pc == w (-1)) = true := by decide

/-- V-CT-5. -/
theorem test_jmp_without_operand :
    stepWith (.jmp []) bound (faultedWith .malformedLiteral 2 (some [])) = true := by decide

/-- V-CT-10 and V-CT-11. -/
theorem test_jzs :
    (stepWith (.jzs [' ', '9']) { bound with zf := false, ovf := true } (fun t => t.pc == 3) &&
      stepWith (.jzs [' ', '9']) { bound with zf := true, ovf := true } (fun t => t.pc == 9)) = true := by decide

/-- V-CT-8: not taken, and still a fault. -/
theorem test_jzs_malformed_untaken :
    stepWith (.jzs [' ', 'x']) bound (faultedWith .malformedLiteral 2 (some [' ', 'x'])) = true := by decide

/-- V-CT-9 and V-CT-11. -/
theorem test_jvs :
    (stepWith (.jvs [' ', '9']) { bound with zf := true, ovf := false } (fun t => t.pc == 3) &&
      stepWith (.jvs [' ', '9']) { bound with zf := true, ovf := true } (fun t => t.pc == 9)) = true := by decide

/-- V-AR-2, V-AR-4, V-AR-6 and V-AR-7: each branch, with the flags it leaves. -/
theorem test_add_branches :
    (addGives 3 (-1) true true 2 false false && addGives 5 (-5) false true 0 true true &&
      addGives 2147483646 1 true false 2147483646 true true &&
      addGives (-2147483648) 0 true false (-2147483648) true true) = true := by decide

/-- V-AR-8 to V-AR-11: sums beyond 32 bits, and the largest and smallest sums written. -/
theorem test_add_extremes :
    (addGives 2147483647 2147483647 false false 2147483647 false true &&
      addGives (-2147483648) (-2147483648) false false (-2147483648) false true &&
      addGives 2147483645 1 false false 2147483646 false false &&
      addGives (-2147483646) (-1) false false (-2147483647) false false) = true := by decide

/-- V-EN-5. -/
theorem test_hlt :
    stepWith .hlt bound (fun t => t.mode == .halted && t.pc == 2 && t.trace.length == 1) = true := by decide

/-! ### Fetch, engine and loader -/

/-- V-DEC-5 and V-DEC-6: the last slot, and a re-declaration that needs a second one. -/
theorem test_dec_exhaustion :
    (isNext (exec (.dec ['a']) full127) (fun t => t.sym == [(['a'], 127)]) &&
      isNext (exec (.dec ['a']) full127a) (faultedWith .slotExhausted 0 (some ['a']))) = true := by decide

/-- V-EN-1 to V-EN-3: OutOfBounds and EmptySlot. -/
theorem test_fetch_faults :
    (isNext (step (issue State.reset .step)) (faultedWith .outOfBounds 0 none) &&
      isNext (step (issue { p1 with prog := [(0, encode .hlt)], pc := 1 } .step)) (faultedWith .emptySlot 1 none) &&
      isNext (step (issue { p1 with pc := 4 } .step)) (faultedWith .outOfBounds 4 none)) = true := by decide

/-- R200: the fault codes. -/
theorem test_fault_codes :
    [FaultKind.undeclaredSymbol, .malformedLiteral, .outOfBounds, .emptySlot, .slotExhausted].map FaultKind.code =
      [1, 2, 3, 4, 5] := by decide

/-- V-EN-9 and V-EN-10: the pause before the next fetch, and both answers. -/
theorem test_checkpoint :
    (isNext (step { runningAt 999 1 with regA := 0 }) (fun t => t.checkpoint && t.runCount == 1000 && t.pc == 2) &&
      isNext (step (giveAnswer paused .negative)) (fun t => t.mode == .idle && t.pc == 3) &&
      isNext (step (giveAnswer paused .other)) (fun t => t.mode == .running && !t.pauseEnabled)) = true := by decide

/-- The record that 95_test_vectors.md gives after V-LS-1. -/
theorem test_trace_record :
    stepWith (.lda ['x']) { bound with regA := 0, regB := 0 } (fun t =>
      t.trace == [⟨['L', 'D', 'A'], some ['x'], 5, 0, false, false, [(['x'], 5)]⟩]) = true := by decide

/-- P1 by one `a`: A=5, pc=3, Sym={x:4}, store[4]=5, `Halted`. -/
theorem test_p1_runs_to_halt :
    (match loadText Params.standard "DEC x\nLDI 5\nSTR x\nHLT\n".toList with
      | .ready s   => isNext (Sys2Proof.core.run 5 (issue s .run)) fun t =>
          t.mode == .halted && t.regA == 5 && t.pc == 3 && t.sym == [(['x'], 4)] && t.store == [(4, 5)] &&
            t.trace.length == 4 && t.runCount == 3
      | .refused _ => false) = true := by decide

/-- A word placed for the next fetch runs as the first instruction after reset. -/
theorem test_withFetchWord :
    isNext (step (State.reset.withFetchWord 8 0x15)) (fun t => t.pc == 1 && t.trace.length == 1) = true := by decide

/-! ### Witnesses: states and operands that meet the hypotheses of the obligations -/

theorem bound_dataInv : DataInv bound :=
  ⟨by decide, by decide, by unfold SlotsUnique; decide, by unfold BoundSlotsVacant; decide,
    ⟨by decide, by decide, by decide⟩⟩

theorem p1_cleanLaunch : CleanLaunch (issue p1 .run) := ⟨⟨by decide, by decide, by decide⟩, rfl⟩

theorem running_engineInv (n : Nat) (h : n < 1000) (pc : Word) : EngineInv (runningAt n pc) :=
  ⟨by simp [runningAt], by simp [runningAt, p1, withImage, State.reset], by simp [runningAt, p1, withImage, State.reset],
    fun _ _ _ => h, by simp [runningAt, p1, withImage, State.reset]⟩

theorem paused_engineInv : EngineInv paused :=
  ⟨by decide, by decide, by decide, by decide, by decide⟩

theorem bound_valuesFit32 : ValuesFit32 bound := by unfold ValuesFit32 Fits32; decide

theorem bound_defaultLiterals : DefaultLiterals bound := by unfold DefaultLiterals; decide

/-- O2: well-formed instructions, at the empty operands. -/
theorem witness_TextLine :
    [Instr.dec [], .lda ['x'], .ldb ['x'], .ldi ['5'], .str ['x'], .xch, .jmp [' ', '5'], .jzs [], .jvs [' '], .add,
      .hlt].all Instr.wf = true := by decide

/-- O3: an operand without a space, and the empty one. -/
theorem witness_Operands : ' ' ∉ ['x', 'y'] ∧ ' ' ∉ ([] : Text) := by decide

/-- O4: a line that is not recognised. -/
theorem witness_Eleven : (parseLine "NOP".toList).present = false := by decide

/-- O5: lines without LF that do not end in CR, and a last line. -/
theorem witness_Lines :
    (∀ l ∈ [['H'], ([] : Text)], '\n' ∉ l) ∧ (∀ l ∈ [['H'], ([] : Text)], l.getLast? ≠ some '\r') ∧
    ['H'] ≠ ([] : Text) ∧ '\n' ∉ ['H'] := by decide

/-- O7: the ends of the default range, and blanks. -/
theorem witness_Decimal :
    (∀ c ∈ [' ', '\t'], c = ' ' ∨ c = '\t') ∧
    Params.standard.litMin.toInt ≤ (w (-2147483648)).toInt ∧ (w 2147483647).toInt ≤ Params.standard.litMax.toInt ∧
    decimal (-2147483648) = "-2147483648".toList :=
  ⟨by simp, by decide, by decide, by decide⟩

set_option maxRecDepth 8000 in
/-- O9: a text of 128 lines, and one of 129. -/
theorem witness_Loader :
    (splitLines (List.replicate 128 '\n')).length ≤ 128 ∧ 128 < (splitLines (List.replicate 129 '\n')).length := by decide

/-- O10: an image that loads, and a present record of tag 11. -/
theorem witness_Refuses :
    [encode .hlt, Record.empty].length ≤ 128 ∧
    (∀ r ∈ [encode .hlt, Record.empty], r.present = false ∨ decode r = .instr .hlt) ∧
    (⟨0x1B, none⟩ : Record).present = true ∧ 11 ≤ (⟨0x1B, none⟩ : Record).tag.toNat := by decide

/-- O11: a program, with a jump. -/
theorem witness_Rendered :
    [Instr.jmp [' ', '0'], .hlt].length ≤ 128 ∧ (∀ i ∈ [Instr.jmp [' ', '0'], .hlt], i.wf = true) ∧
    (∀ i ∈ [Instr.jmp [' ', '0'], .hlt], (renderLine i).getLast? ≠ some '\r') := by decide

/-- O12 and O14: an image and a text that load. -/
theorem witness_Load :
    loadImage Params.standard [encode .hlt] = .ready (withImage Params.standard [encode .hlt]) ∧
    loadText Params.standard "HLT".toList = .ready (withImage Params.standard [encode .hlt]) := by decide

/-- O15: a state under each policy. -/
theorem witness_Policies :
    bound.params.decPolicy = .programOccupancy ∧
    { bound with params := { Params.standard with decPolicy := .storeOccupancy } }.params.decPolicy =
      .storeOccupancy := by decide

/-- O16: a free slot, the last one, and none. -/
theorem witness_Dec : freeSlot p1 = some 4 ∧ freeSlot full127 = some 127 ∧ freeSlot full127a = none := by decide

/-- O17: `x` is bound, and its re-declaration completes. -/
theorem witness_Redeclaration :
    DataInv bound ∧ bound.mode ≠ .faulted ∧ symGet bound.sym ['x'] = some 4 ∧
    ∃ t, exec (.dec ['x']) bound = .next t ∧ t.mode ≠ .faulted :=
  ⟨bound_dataInv, by decide, by decide, _, rfl, by decide⟩

/-- O18: every slot but the name's own is occupied. -/
theorem witness_SecondSlot :
    full127a.params.decPolicy = .programOccupancy ∧ symGet full127a.sym ['a'] = some 127 ∧
    ∀ j : Slot, j ≠ 127 → (progRead full127a j.val).present = true ∨ ∃ e ∈ full127a.sym, e.2 = j := by decide

/-- O19 and O56: a state that meets the data invariant under the default policy, and steps. -/
theorem witness_DataInv : DataInv bound ∧ bound.params.decPolicy = .programOccupancy ∧ ∃ t, step bound = .next t :=
  ⟨bound_dataInv, by decide, _, rfl⟩

/-- O20: three DECs run (L1-2 of 95_test_vectors.md), and a name they bind. -/
theorem witness_Declarations :
    SlotsUnique p1 ∧ isNext (execAll ([['x'], ['y'], ['x']].map Instr.dec) p1) (fun t =>
      symGet t.sym ['x'] == some 6 && symGet t.sym ['y'] == some 5) = true :=
  ⟨by unfold SlotsUnique; decide, by decide⟩

/-- O21: a bound name, and an undeclared one under each setting. -/
theorem witness_Resolve :
    symGet bound.sym ['x'] = some 4 ∧ symGet bound.sym ['q'] = none ∧ bound.params.undeclared = .fault ∧
    symGet legacy.sym ['q'] = none ∧ legacy.params.undeclared = .legacySlot0 := by decide

/-- O22, O23, O25 and O34: a name that resolves, to slot 0 too, and one that does not. -/
theorem witness_LoadStore :
    resolve bound ['x'] = some 4 ∧ resolve legacy ['q'] = some 0 ∧ resolve bound ['q'] = none ∧
    Memory.wf bound.store = true ∧ (1 : Slot) ≠ 0 := by decide

/-- O24, O28, O29 and O30: literals at both ends of the range, one beyond it, and both values of each flag. -/
theorem witness_Literals :
    parseInt bound.params "2147483647".toList = some 2147483647 ∧
    parseInt bound.params " -2147483648".toList = some (w (-2147483648)) ∧
    parseInt bound.params " 2147483648".toList = none ∧
    bound.zf = false ∧ bound.ovf = false ∧ (addState 0 0 true true).zf = true ∧ (addState 0 0 true true).ovf = true := by
  decide

/-- O26: STR of a bound name, then other instructions, under each setting of `P_UNDECLARED`. -/
theorem witness_StoreLoad :
    DataInv bound ∧ symGet bound.sym ['x'] = some 4 ∧ bound.params.undeclared = .fault ∧ (4 : Slot) ≠ 0 ∧
    (∀ i ∈ [Instr.ldi ['0'], .dec ['y'], .str ['y']], i ≠ .dec ['x'] ∧ i ≠ .str ['x']) ∧
    ∃ t, execAll [.str ['x'], .ldi ['0'], .dec ['y'], .str ['y']] bound = .next t :=
  ⟨bound_dataInv, by decide, by decide, by decide, by decide, _, rfl⟩

/-- O31 and O32: operands of each branch, at its boundary sums. -/
theorem witness_Add :
    [(-2147483648, 0), (-2147483646, -1), (-1, 0), (0, 0), (1, 0), (2147483645, 1), (2147483646, 1)].map
      (fun e : Int × Int => (addState e.1 e.2 false false).regA.toInt + (addState e.1 e.2 false false).regB.toInt) =
      [-2147483648, -2147483647, -1, 0, 1, 2147483646, 2147483647] ∧
    isNext (exec .add (addState 0 0 false false)) (fun t => t.zf) = true := by decide

/-- O33, O35, O36, O37, O38 and O40: every instruction runs from `bound` to a next state without a fault. -/
theorem witness_Exec :
    ([Instr.dec ['y'], .lda ['x'], .ldb ['x'], .ldi ['5'], .str ['x'], .xch, .jmp [' ', '5'], .jzs [' ', '5'],
      .jvs [' ', '5'], .add, .hlt].all fun i => isNext (exec i bound) fun t => t.mode != .faulted) = true := by decide

/-- O36: the ends of the fetch range of a full program. -/
theorem witness_PcRange :
    let s : State := { full127 with progLen := 128, pc := 127 }
    0 ≤ s.pc.toInt ∧ s.pc.toInt < s.progLen ∧ s.progLen ≤ 128 ∧ 0 ≤ full127.pc.toInt := by decide

/-- O41: a single step and a run whose record at `pc` decodes. -/
theorem witness_StepRuns :
    decode (progRead p1 0) = .instr (.dec ['x']) ∧ decode (progRead p1 3) = .instr .hlt ∧
    0 ≤ p1.pc.toInt ∧ p1.pc.toInt < p1.progLen ∧ (issue p1 .step).mode = .idle ∧
    (issue p1 .step).commands = [.step] ∧ (runningAt 0 0).mode = .running ∧ (runningAt 0 0).checkpoint = false ∧
    isNext (exec (.dec ['x']) p1) (fun _ => true) = true ∧ isNext (exec .hlt (runningAt 3 3)) (fun _ => true) = true := by
  decide

/-- O42: fetches below, at and beyond the range, and of an `EMPTY` slot at both ends of it. -/
theorem witness_Fetch :
    Fetches (issue p1 .step) ∧ Fetches (runningAt 0 0) ∧
    (w (-1)).toInt < 0 ∧ ((issue { p1 with pc := 4 } .step).progLen : Int) ≤ (4 : Word).toInt ∧
    (progRead { p1 with prog := [(1, encode .hlt)] } 0).present = false ∧
    (progRead { p1 with prog := [(1, encode .hlt)] } 3).present = false :=
  ⟨.inl ⟨.inl (by decide), by decide⟩, .inr (by decide), by decide, by decide, by decide, by decide⟩

/-- O43 and O44: each fault of an instruction, and a step that enters `Faulted`. -/
theorem witness_Faults :
    (isNext (exec (.dec ['a']) full127a) (fun t => t.mode == .faulted) &&
      isNext (exec (.lda ['q']) bound) (fun t => t.mode == .faulted) &&
      isNext (exec (.jmp ['x']) bound) (fun t => t.mode == .faulted) &&
      isNext (step (issue State.reset .step)) (fun t => t.mode == .faulted)) = true ∧
    bound.mode ≠ .faulted ∧ full127a.mode ≠ .faulted ∧ (issue State.reset .step).mode ≠ .faulted := by decide

/-- O45: a step that executes an instruction and does not fault, one that faults, and one that executes nothing. -/
theorem witness_Trace :
    Executes (runningAt 0 0) (.dec ['x']) ∧ isNext (step (runningAt 0 0)) (fun t => t.mode != .faulted) = true ∧
    (∀ i, ¬ Executes paused i) ∧ isNext (step paused) (fun _ => true) = true :=
  ⟨⟨.inr (by decide), by decide, by decide, by decide⟩, by decide, fun i h => by
    rcases h.1 with h | h
    · exact absurd h.1 (by decide)
    · exact absurd h.2 (by decide), by decide⟩

/-- O46, O47, O53 and O54: every mode with every command that it takes, and a step from each. -/
theorem witness_Modes :
    ([Mode.idle, .stepping, .halted, .faulted].all fun m => [Command.step, .run, .quit].all fun c =>
      isNext (step (issue { p1 with mode := m } c)) fun _ => true) = true ∧
    ([Mode.idle, .stepping, .halted, .faulted].all fun m => isNext (step { p1 with mode := m }) fun _ => true) = true ∧
    isNext (step (giveAnswer paused .negative)) (fun t => t.mode == .idle) = true ∧
    isNext (step (issue (runningAt 0 0) .quit)) (fun _ => true) = true := by decide

/-- O48 and O50: a run's start, and a paused run with each answer and with none. -/
theorem witness_Answers :
    (issue p1 .run).commands = [.run] ∧ (issue p1 .run).mode = .idle ∧
    paused.mode = .running ∧ paused.checkpoint = true ∧ paused.answers = [] ∧
    (giveAnswer paused .negative).answers = [.negative] ∧ (giveAnswer paused .other).answers = [.other] := by decide

/-- O49 and O57: a run just before and just at its checkpoint, that stays in `Running`. -/
theorem witness_Checkpoint :
    EngineInv (runningAt 999 1) ∧ isNext (step (runningAt 999 1)) (fun t => t.mode == .running) = true ∧
    EngineInv paused ∧ isNext (step paused) (fun t => t.mode == .running) = true :=
  ⟨running_engineInv 999 (by decide) 1, by decide, paused_engineInv, by decide⟩

/-- O51: a resumed run takes steps. -/
theorem witness_Resumed :
    let s : State := { runningAt 1000 0 with pauseEnabled := false }
    s.mode = .running ∧ s.pauseEnabled = false ∧ s.checkpoint = false ∧
    isNext (Sys2Proof.core.run 2 s) (fun t => t.runCount == 1002) = true := by decide

/-- O52: a halted and a faulted block take commands. -/
theorem witness_Terminal :
    isNext (Sys2Proof.core.run 2 (issue { p1 with mode := .halted } .step)) (fun t => t.mode == .halted) = true ∧
    isNext (Sys2Proof.core.run 1 (issue { p1 with mode := .faulted } .quit)) (fun t => t.mode == .quit) = true := by decide

/-- O54: a step has a next state. -/
theorem witness_Step : isNext (step (issue p1 .step)) (fun t => t.prog == p1.prog) = true := by decide

/-- O55: P1 halts after exactly 4 single steps. -/
theorem witness_RunToHalt :
    let s : State := { p1 with commands := List.replicate 4 .step }
    s.mode = .idle ∧ isNext (Sys2Proof.core.run 4 s) (fun t => t.mode == .halted) = true ∧
    ([0, 1, 2, 3].all fun j => isNext (Sys2Proof.core.run j s) fun t => t.mode != .halted) = true := by decide

/-- O58: values at the ends of 32 bits, and a step. -/
theorem witness_Values :
    DefaultLiterals bound ∧ Memory.wf bound.store = true ∧ ValuesFit32 bound ∧ (∃ t, step bound = .next t) ∧
    Fits32 (w (-2147483648)) ∧ Fits32 (w 2147483647) :=
  ⟨bound_defaultLiterals, by decide, bound_valuesFit32, ⟨_, rfl⟩, by unfold Fits32; decide, by unfold Fits32; decide⟩

/-- O59: a clean launch under the default literal range runs. -/
theorem witness_Reachable :
    CleanLaunch (issue p1 .run) ∧ DefaultLiterals (issue p1 .run) ∧
    isNext (Sys2Proof.core.run 3 (issue p1 .run)) (fun t => t.regA == 5) = true :=
  ⟨p1_cleanLaunch, by unfold DefaultLiterals; decide, by decide⟩

/-- O60: a loader image in a mode other than `Quit`. -/
theorem witness_NeverStops : LoaderImage p1 ∧ p1.mode ≠ .quit := ⟨⟨by decide, by decide, by decide⟩, by decide⟩

end Sys2Proof.Tests
end

section
/-! SUPPORT. What one instruction leaves as it was and what its result depends on, said once for `exec`; a property
that the engine's own fields do not touch is kept by a step as soon as every instruction keeps it. -/

namespace Sys2Proof.Machine

/-! ### Which instruction writes which register or flag -/

theorem memRead_congr {s t : State} (h : t.store = s.store) (k : Slot) : memRead t k = memRead s k := by
  simp only [memRead, h]

theorem raise_faultEntry (s : State) (kind : FaultKind) (info : Option Text) :
    FaultEntry s (raise s kind info) kind info :=
  ⟨raise_arch s kind info, raise_background s kind info, rfl, rfl⟩

/-- Only LDA, LDI, XCH and ADD write `A` (R22). -/
theorem exec_regA {i : Instr} {s t : State} (h : exec i s = .next t) :
    t.regA = s.regA ∨ (∃ n, i = .lda n) ∨ (∃ l, i = .ldi l) ∨ i = .xch ∨ i = .add := by
  obtain ⟨kind, info, -, rfl⟩ | hc := exec_cases h
  · exact .inl rfl
  · cases i with
    | dec n | ldb n | str n | jmp l => obtain ⟨k, -, rfl⟩ := hc; exact .inl rfl
    | jzs l | jvs l => obtain ⟨v, -, rfl⟩ := hc; split <;> exact .inl rfl
    | hlt => obtain rfl := hc; exact .inl rfl
    | lda n => exact .inr (.inl ⟨n, rfl⟩)
    | ldi l => exact .inr (.inr (.inl ⟨l, rfl⟩))
    | xch => exact .inr (.inr (.inr (.inl rfl)))
    | add => exact .inr (.inr (.inr (.inr rfl)))

/-- Only LDB and XCH write `B` (R22). -/
theorem exec_regB {i : Instr} {s t : State} (h : exec i s = .next t) :
    t.regB = s.regB ∨ (∃ n, i = .ldb n) ∨ i = .xch := by
  obtain ⟨kind, info, -, rfl⟩ | hc := exec_cases h
  · exact .inl rfl
  · cases i with
    | dec n | lda n | ldi l | str n | jmp l | add => obtain ⟨k, -, rfl⟩ := hc; exact .inl rfl
    | jzs l | jvs l => obtain ⟨v, -, rfl⟩ := hc; split <;> exact .inl rfl
    | hlt => obtain rfl := hc; exact .inl rfl
    | ldb n => exact .inr (.inl ⟨n, rfl⟩)
    | xch => exact .inr (.inr rfl)

/-- Only ADD writes a flag (R27). -/
theorem exec_flags {i : Instr} {s t : State} (hi : i ≠ .add) (h : exec i s = .next t) :
    t.zf = s.zf ∧ t.ovf = s.ovf := by
  obtain ⟨kind, info, -, rfl⟩ | hc := exec_cases h
  · exact ⟨rfl, rfl⟩
  · cases i with
    | dec n | lda n | ldb n | ldi l | str n | jmp l => obtain ⟨k, -, rfl⟩ := hc; exact ⟨rfl, rfl⟩
    | jzs l | jvs l => obtain ⟨v, -, rfl⟩ := hc; split <;> exact ⟨rfl, rfl⟩
    | xch | hlt => obtain rfl := hc; exact ⟨rfl, rfl⟩
    | add => exact absurd rfl hi

/-! ### What an instruction depends on -/

/-- `exec` answers what `Raises` and `Completes` say, and nothing else. -/
theorem exec_eq_next {i : Instr} {s t : State} : exec i s = .next t ↔
    (∃ kind info, Raises i s kind info ∧ t = raise s kind info) ∨ Completes i s t := by
  refine ⟨exec_cases, ?_⟩
  rintro (⟨kind, info, hr, rfl⟩ | hc)
  · cases i with
    | dec n => obtain ⟨hf, rfl, rfl⟩ := hr; simp only [exec, execDec, hf]
    | lda n | ldb n | str n =>
      obtain ⟨hf, rfl, rfl⟩ := hr; exact congrArg Host.Outcome.next (withSlot_of_none hf _)
    | ldi l | jmp l | jzs l | jvs l =>
      obtain ⟨hf, rfl, rfl⟩ := hr; exact congrArg Host.Outcome.next (withLiteral_of_none hf _)
    | xch | add | hlt => exact hr.elim
  · cases i with
    | dec n => obtain ⟨k, hk, rfl⟩ := hc; simp only [exec, execDec, hk]
    | lda n | ldb n | str n =>
      obtain ⟨k, hk, rfl⟩ := hc; exact congrArg Host.Outcome.next (withSlot_of_some hk _)
    | ldi l | jmp l | jzs l | jvs l =>
      obtain ⟨v, hv, rfl⟩ := hc; exact congrArg Host.Outcome.next (withLiteral_of_some hv _)
    | add => obtain ⟨r, rfl, rfl⟩ := hc; rfl
    | xch | hlt => obtain rfl := hc; rfl

/-- Whether an instruction faults is decided by the symbol table, program memory and the parameters alone (R200). -/
theorem raises_congr {i : Instr} {s s' : State} {kind : FaultKind} {info : Option Text} (hprog : s'.prog = s.prog)
    (hsym : s'.sym = s.sym) (hparams : s'.params = s.params) (h : Raises i s kind info) :
    Raises i s' kind info := by
  cases i with
  | dec n => exact ⟨(freeSlot_congr hprog hsym hparams).trans h.1, h.2⟩
  | lda n | ldb n | str n => exact ⟨(resolve_congr n hsym hparams).trans h.1, h.2⟩
  | ldi l | jmp l | jzs l | jvs l => exact ⟨hparams ▸ h.1, h.2⟩
  | xch | add | hlt => exact h

/-- The ADD unit reads `ZF` only to keep it. -/
theorem addUnit_zf (a b : Word) (z z' o : Bool) :
    addUnit a b z' o = { addUnit a b z o with zf := (addUnit a b z' o).zf } := by
  unfold addUnit
  split_ifs <;> rfl

/-- The ADD unit reads `OF` only to keep it. -/
theorem addUnit_ovf (a b : Word) (z o o' : Bool) :
    addUnit a b z o' = { addUnit a b z o with ovf := (addUnit a b z o').ovf } := by
  unfold addUnit
  split_ifs <;> rfl

/-- Only JZS depends on `ZF` (R27). -/
theorem exec_zf_irrelevant {i : Instr} {s t : State} (b : Bool) (hi : ∀ l, i ≠ .jzs l) (h : exec i s = .next t) :
    ∃ z, exec i { s with zf := b } = .next { t with zf := z } := by
  simp only [exec_eq_next]
  obtain ⟨kind, info, hr, rfl⟩ | hc := exec_cases h
  · exact ⟨b, .inl ⟨kind, info, raises_congr rfl rfl rfl hr, rfl⟩⟩
  · cases i with
    | dec n => obtain ⟨k, hk, rfl⟩ := hc; exact ⟨b, .inr ⟨k, (freeSlot_congr rfl rfl rfl).trans hk, rfl⟩⟩
    | lda n | ldb n | ldi l | str n | jmp l => obtain ⟨k, hk, rfl⟩ := hc; exact ⟨b, .inr ⟨k, hk, rfl⟩⟩
    | jvs l => obtain ⟨v, hv, rfl⟩ := hc; exact ⟨b, .inr ⟨v, hv, by split <;> rfl⟩⟩
    | xch | hlt => obtain rfl := hc; exact ⟨b, .inr rfl⟩
    | add =>
      obtain ⟨r, rfl, rfl⟩ := hc
      exact ⟨_, .inr ⟨_, rfl, by rw [addUnit_zf s.regA s.regB s.zf b s.ovf]; rfl⟩⟩
    | jzs l => exact absurd rfl (hi l)

/-- Only JVS depends on `OF` (R27). -/
theorem exec_ovf_irrelevant {i : Instr} {s t : State} (b : Bool) (hi : ∀ l, i ≠ .jvs l) (h : exec i s = .next t) :
    ∃ o, exec i { s with ovf := b } = .next { t with ovf := o } := by
  simp only [exec_eq_next]
  obtain ⟨kind, info, hr, rfl⟩ | hc := exec_cases h
  · exact ⟨b, .inl ⟨kind, info, raises_congr rfl rfl rfl hr, rfl⟩⟩
  · cases i with
    | dec n => obtain ⟨k, hk, rfl⟩ := hc; exact ⟨b, .inr ⟨k, (freeSlot_congr rfl rfl rfl).trans hk, rfl⟩⟩
    | lda n | ldb n | ldi l | str n | jmp l => obtain ⟨k, hk, rfl⟩ := hc; exact ⟨b, .inr ⟨k, hk, rfl⟩⟩
    | jzs l => obtain ⟨v, hv, rfl⟩ := hc; exact ⟨b, .inr ⟨v, hv, by split <;> rfl⟩⟩
    | xch | hlt => obtain rfl := hc; exact ⟨b, .inr rfl⟩
    | add =>
      obtain ⟨r, rfl, rfl⟩ := hc
      exact ⟨_, .inr ⟨_, rfl, by rw [addUnit_ovf s.regA s.regB s.zf s.ovf b]; rfl⟩⟩
    | jvs l => exact absurd rfl (hi l)

/-- Only STR, XCH and ADD depend on `A` (R22). -/
theorem exec_regA_irrelevant {i : Instr} {s t : State} (v : Word) (hstr : ∀ n, i ≠ .str n) (hxch : i ≠ .xch)
    (hadd : i ≠ .add) (h : exec i s = .next t) : ∃ w, exec i { s with regA := v } = .next { t with regA := w } := by
  simp only [exec_eq_next]
  obtain ⟨kind, info, hr, rfl⟩ | hc := exec_cases h
  · exact ⟨v, .inl ⟨kind, info, raises_congr rfl rfl rfl hr, rfl⟩⟩
  · cases i with
    | dec n => obtain ⟨k, hk, rfl⟩ := hc; exact ⟨v, .inr ⟨k, (freeSlot_congr rfl rfl rfl).trans hk, rfl⟩⟩
    | lda n => obtain ⟨k, hk, rfl⟩ := hc; exact ⟨memRead s k, .inr ⟨k, hk, rfl⟩⟩
    | ldi l => obtain ⟨u, hu, rfl⟩ := hc; exact ⟨u, .inr ⟨u, hu, rfl⟩⟩
    | ldb n | jmp l => obtain ⟨k, hk, rfl⟩ := hc; exact ⟨v, .inr ⟨k, hk, rfl⟩⟩
    | jzs l => obtain ⟨u, hu, rfl⟩ := hc; exact ⟨v, .inr ⟨u, hu, by split <;> rfl⟩⟩
    | jvs l => obtain ⟨u, hu, rfl⟩ := hc; exact ⟨v, .inr ⟨u, hu, by split <;> rfl⟩⟩
    | hlt => obtain rfl := hc; exact ⟨v, .inr rfl⟩
    | str n => exact absurd rfl (hstr n)
    | xch => exact absurd rfl hxch
    | add => exact absurd rfl hadd

/-- Only XCH and ADD depend on `B` (R22). -/
theorem exec_regB_irrelevant {i : Instr} {s t : State} (v : Word) (hxch : i ≠ .xch) (hadd : i ≠ .add)
    (h : exec i s = .next t) : ∃ w, exec i { s with regB := v } = .next { t with regB := w } := by
  simp only [exec_eq_next]
  obtain ⟨kind, info, hr, rfl⟩ | hc := exec_cases h
  · exact ⟨v, .inl ⟨kind, info, raises_congr rfl rfl rfl hr, rfl⟩⟩
  · cases i with
    | dec n => obtain ⟨k, hk, rfl⟩ := hc; exact ⟨v, .inr ⟨k, (freeSlot_congr rfl rfl rfl).trans hk, rfl⟩⟩
    | ldb n => obtain ⟨k, hk, rfl⟩ := hc; exact ⟨memRead s k, .inr ⟨k, hk, rfl⟩⟩
    | lda n | ldi l | str n | jmp l => obtain ⟨k, hk, rfl⟩ := hc; exact ⟨v, .inr ⟨k, hk, rfl⟩⟩
    | jzs l => obtain ⟨u, hu, rfl⟩ := hc; exact ⟨v, .inr ⟨u, hu, by split <;> rfl⟩⟩
    | jvs l => obtain ⟨u, hu, rfl⟩ := hc; exact ⟨v, .inr ⟨u, hu, by split <;> rfl⟩⟩
    | hlt => obtain rfl := hc; exact ⟨v, .inr rfl⟩
    | xch => exact absurd rfl hxch
    | add => exact absurd rfl hadd

/-! ### Properties of the machine that the engine does not touch -/

/-- The two states differ at most in the engine's fields, its inputs and its outputs. -/
structure OnlyEngineDiffers (s t : State) : Prop where
  arch    : SameArch s t
  prog    : t.prog = s.prog
  progLen : t.progLen = s.progLen
  params  : t.params = s.params

theorem dropCommand_onlyEngine (s : State) : OnlyEngineDiffers s (dropCommand s) :=
  ⟨⟨rfl, rfl, rfl, rfl, rfl, rfl, rfl⟩, rfl, rfl, rfl⟩

theorem startRun_onlyEngine (s : State) : OnlyEngineDiffers s (startRun s) :=
  ⟨⟨rfl, rfl, rfl, rfl, rfl, rfl, rfl⟩, rfl, rfl, rfl⟩

theorem quit_onlyEngine (s : State) : OnlyEngineDiffers s (quit s) :=
  ⟨⟨rfl, rfl, rfl, rfl, rfl, rfl, rfl⟩, rfl, rfl, rfl⟩

theorem raise_onlyEngine (s : State) (kind : FaultKind) (info : Option Text) :
    OnlyEngineDiffers s (raise s kind info) :=
  ⟨⟨rfl, rfl, rfl, rfl, rfl, rfl, rfl⟩, rfl, rfl, rfl⟩

theorem afterExec_onlyEngine (i : Instr) (t : State) : OnlyEngineDiffers t (afterExec i t) := by
  unfold afterExec
  split <;> exact ⟨⟨rfl, rfl, rfl, rfl, rfl, rfl, rfl⟩, rfl, rfl, rfl⟩

theorem settleStep_onlyEngine (t : State) : OnlyEngineDiffers t (settleStep t) := by
  unfold settleStep
  split <;> exact ⟨⟨rfl, rfl, rfl, rfl, rfl, rfl, rfl⟩, rfl, rfl, rfl⟩

theorem settleRun_onlyEngine (t : State) : OnlyEngineDiffers t (settleRun t) := by
  unfold settleRun
  split <;> exact ⟨⟨rfl, rfl, rfl, rfl, rfl, rfl, rfl⟩, rfl, rfl, rfl⟩

theorem takeAnswer_onlyEngine (s : State) : OnlyEngineDiffers s (takeAnswer s) := by
  unfold takeAnswer
  split <;> exact ⟨⟨rfl, rfl, rfl, rfl, rfl, rfl, rfl⟩, rfl, rfl, rfl⟩

/-- `P` does not look at the engine's fields. -/
def EngineBlind (P : State → Prop) : Prop := ∀ ⦃s t : State⦄, OnlyEngineDiffers s t → P s → P t

/-- Every instruction keeps `P`. -/
def KeptByExec (P : State → Prop) : Prop := ∀ ⦃i : Instr⦄ ⦃s t : State⦄, exec i s = .next t → P s → P t

section
variable {P : State → Prop} (hblind : EngineBlind P) (hexec : KeptByExec P)
include hblind hexec

theorem execOne_keeps {s u : State} (h : execOne s = .next u) (hs : P s) : P u := by
  obtain ⟨kind, -, rfl⟩ | ⟨i, t, -, ht, rfl⟩ := execOne_cases h
  · exact hblind (raise_onlyEngine s kind none) hs
  · exact hblind (afterExec_onlyEngine i t) (hexec ht hs)

/-- What the engine does not look at and every instruction keeps, every step keeps (R152 to R159). -/
theorem step_keeps {s t : State} (h : step s = .next t) (hs : P s) : P t := by
  have hdrop : P (dropCommand s) := hblind (dropCommand_onlyEngine s) hs
  rcases step_cases h with ⟨-, hready⟩ | ⟨-, hrunning⟩ | ⟨-, hended⟩
  · rcases hready with ⟨-, rfl⟩ | ⟨-, u, hu, rfl⟩ | ⟨-, rfl⟩ | ⟨-, rfl⟩
    · exact hs
    · exact hblind (settleStep_onlyEngine u) (execOne_keeps hblind hexec hu hdrop)
    · exact hblind (startRun_onlyEngine _) hdrop
    · exact hblind (quit_onlyEngine _) hdrop
  · rcases hrunning with ⟨-, rfl⟩ | ⟨-, u, hu, rfl⟩
    · exact hblind (takeAnswer_onlyEngine s) hs
    · exact hblind (settleRun_onlyEngine u) (execOne_keeps hblind hexec hu hs)
  · rcases hended with ⟨-, rfl⟩ | ⟨-, rfl⟩ | ⟨-, rfl⟩
    · exact hs
    · exact hdrop
    · exact hblind (quit_onlyEngine _) hdrop

/-- The same over any number of steps. -/
theorem run_keeps {k : Nat} {s t : State} (h : Sys2Proof.core.run k s = .next t) (hs : P s) : P t := by
  induction k generalizing s with
  | zero => exact Host.Outcome.next.inj h ▸ hs
  | succ k ih =>
    obtain ⟨u, hu, hrest⟩ := run_succ.mp h
    exact ih hrest (step_keeps hblind hexec hu hs)

end

end Sys2Proof.Machine
end

section
/-! SUPPORT. The data invariant (R32, R33, R46), one field at a time, is kept by every instruction. -/

namespace Sys2Proof.Machine

theorem LoaderImage.congr {s t : State} (hprog : t.prog = s.prog) (hlen : t.progLen = s.progLen)
    (h : LoaderImage s) : LoaderImage t :=
  ⟨hlen ▸ h.len_le, by rw [hprog, hlen]; exact h.wf, hprog ▸ h.loadable⟩

theorem progRead_congr {s t : State} (h : t.prog = s.prog) (k : Nat) : progRead t k = progRead s k := by
  simp only [progRead, h]

/-- The data invariant speaks of the memories, the symbol table and the parameters only. -/
theorem DataInv.congr {s t : State} (hstore : t.store = s.store) (hsym : t.sym = s.sym) (hprog : t.prog = s.prog)
    (hlen : t.progLen = s.progLen) (hparams : t.params = s.params) (h : DataInv s) : DataInv t where
  store := hstore ▸ h.store
  sym := hsym ▸ h.sym
  unique := by simpa only [SlotsUnique, hsym] using h.unique
  vacant := by simpa only [BoundSlotsVacant, progRead_congr hprog, hsym, hparams] using h.vacant
  image := h.image.congr hprog hlen

theorem DataInv.engineBlind : EngineBlind DataInv := fun _ _ hd hs =>
  hs.congr hd.arch.store hd.arch.sym hd.prog hd.progLen hd.params

/-- A binding to the free slot keeps the data invariant: that slot is unclaimed, and `EMPTY` where the policy asks for
it (R100, R101, R105). -/
theorem DataInv.bindSym {s : State} {n : Text} {k : Slot} (h : DataInv s) (hk : freeSlot s = some k) :
    DataInv (bindSym s n k) := by
  obtain ⟨hempty, hunclaimed⟩ := vacant_iff.mp (freeSlot_eq_some.mp hk).1
  refine ⟨h.store, SymTab.wf_symSet h.sym, nodup_symSet h.unique hunclaimed, fun hpolicy e he => ?_,
    .congr (s := s) rfl rfl h.image⟩
  rcases mem_symSet he with rfl | hold
  · exact hempty hpolicy
  · exact h.vacant hpolicy e hold

/-- A slot write keeps the data invariant (log 5). -/
theorem DataInv.memWrite {s : State} (h : DataInv s) (k : Slot) (v : Word) : DataInv (memWrite s k v) :=
  ⟨Memory.wf_memWrite h.store k v, h.sym, h.unique, h.vacant, .congr (s := s) rfl rfl h.image⟩

theorem DataInv.keptByExec : KeptByExec DataInv := by
  intro i s t h hs
  have hb := exec_background h
  rcases exec_data h with ⟨hstore, hsym⟩ | ⟨n, k, -, hk, hstore, hsym⟩ | ⟨n, k, -, -, hstore, hsym⟩
  · exact hs.congr hstore hsym hb.prog hb.progLen hb.params
  · exact DataInv.congr (s := Machine.bindSym s n k) hstore hsym hb.prog hb.progLen hb.params (hs.bindSym hk)
  · exact DataInv.congr (s := Machine.memWrite s k s.regA) hstore hsym hb.prog hb.progLen hb.params
      (hs.memWrite k s.regA)

end Sys2Proof.Machine
end

section
/-! SUPPORT. The 32-bit range of values (R23): every instruction keeps it, and it makes the upper half of a value copies
of bit 31. -/

namespace Sys2Proof.Machine

/-- A value of 32 bits is the sign extension of its lower half (R23). -/
theorem Fits32.signExtend_setWidth {v : Word} (h : Fits32 v) : (v.setWidth 32).signExtend 64 = v := by
  obtain ⟨hlo, hhi⟩ := h
  have hlow : (v.setWidth 32).toInt = v.toInt := calc
    (v.setWidth 32).toInt = (v.toNat : Int).bmod (2 ^ 32) := BitVec.toInt_setWidth v
    _ = v.toInt.bmod (2 ^ 32) := by
      rw [BitVec.toInt_eq_toNat_bmod v, Int.bmod_bmod_of_dvd (by decide)]
    _ = v.toInt := Int.bmod_eq_of_le (by norm_num; omega) (by norm_num; omega)
  exact BitVec.eq_of_toInt_eq ((BitVec.toInt_signExtend_of_le (by decide)).trans hlow)

theorem fits32_zero : Fits32 0 := ⟨by decide, by decide⟩

/-- What ADD leaves in `A` fits 32 bits where `A` did: the old value, 0, or a sum strictly inside the range (R141). -/
theorem fits32_addUnit {a : Word} (b : Word) (z o : Bool) (ha : Fits32 a) : Fits32 (addUnit a b z o).regA := by
  rcases addUnit_cases a b z o with ⟨-, hr⟩ | ⟨-, -, hr⟩ | ⟨-, hr⟩ | ⟨hlo, hhi, -, hr⟩
  · rw [hr]; exact ha
  · rw [hr]; exact ha
  · rw [hr]; exact fits32_zero
  · rw [hr]
    unfold Fits32
    rw [toInt_ofInt_sum hlo hhi]
    simp only [Config.addLo, Config.addHi] at hlo hhi
    omega

/-- A literal under the default range fits 32 bits (R66). -/
theorem fits32_of_parseInt {s : State} {l : Text} {v : Word} (hd : DefaultLiterals s)
    (h : parseInt s.params l = some v) : Fits32 v := by
  obtain ⟨hlo, hhi⟩ := parseInt_range h
  obtain ⟨hmin, hmax⟩ := hd
  exact ⟨hmin ▸ hlo, hmax ▸ hhi⟩

theorem ValuesFit32.memWrite {s : State} {k : Slot} {v : Word} (hwf : Memory.wf s.store = true) (h : ValuesFit32 s)
    (hv : Fits32 v) : ValuesFit32 (memWrite s k v) := by
  obtain ⟨ha, hb, hm⟩ := h
  refine ⟨ha, hb, fun j => ?_⟩
  rcases eq_or_ne j k with rfl | hne
  · rw [memRead_memWrite_eq hwf]; exact hv
  · rw [memRead_memWrite_ne hne]; exact hm j

/-- A completed instruction keeps every value within 32 bits. -/
theorem Completes.valuesFit32 {i : Instr} {s t : State} (h : Completes i s t) (hd : DefaultLiterals s)
    (hwf : Memory.wf s.store = true) (hs : ValuesFit32 s) : ValuesFit32 t := by
  have hstr := fun k => ValuesFit32.memWrite (k := k) hwf hs hs.1
  obtain ⟨ha, hb, hm⟩ := hs
  cases i with
  | dec n | jmp l => obtain ⟨k, -, rfl⟩ := h; exact ⟨ha, hb, hm⟩
  | lda n => obtain ⟨k, -, rfl⟩ := h; exact ⟨hm k, hb, hm⟩
  | ldb n => obtain ⟨k, -, rfl⟩ := h; exact ⟨ha, hm k, hm⟩
  | ldi l => obtain ⟨v, hv, rfl⟩ := h; exact ⟨fits32_of_parseInt hd hv, hb, hm⟩
  | str n => obtain ⟨k, -, rfl⟩ := h; exact hstr k
  | xch => obtain rfl := h; exact ⟨hb, ha, hm⟩
  | jzs l | jvs l => obtain ⟨v, -, rfl⟩ := h; split <;> exact ⟨ha, hb, hm⟩
  | add => obtain ⟨r, rfl, rfl⟩ := h; exact ⟨fits32_addUnit _ _ _ ha, hb, hm⟩
  | hlt => obtain rfl := h; exact ⟨ha, hb, hm⟩

/-- R23's range with what it rests on: the default literal range and the value store's canonical form. -/
structure Within32Bits (s : State) : Prop where
  literals : DefaultLiterals s
  store    : Memory.wf s.store = true
  values   : ValuesFit32 s

theorem Within32Bits.engineBlind : EngineBlind Within32Bits := fun s t hd hs =>
  ⟨by simpa only [DefaultLiterals, hd.params] using hs.literals, hd.arch.store ▸ hs.store, by
    simpa only [ValuesFit32, hd.arch.regA, hd.arch.regB, memRead_congr hd.arch.store] using hs.values⟩

theorem Within32Bits.keptByExec : KeptByExec Within32Bits := by
  intro i s t h hs
  refine ⟨by simpa only [DefaultLiterals, (exec_background h).params] using hs.literals, ?_, ?_⟩
  · rcases exec_data h with ⟨hstore, -⟩ | ⟨n, k, -, -, hstore, -⟩ | ⟨n, k, -, -, hstore, -⟩
    · exact hstore ▸ hs.store
    · exact hstore ▸ hs.store
    · exact hstore ▸ Memory.wf_memWrite hs.store k s.regA
  · obtain ⟨kind, info, -, rfl⟩ | hc := exec_cases h
    · exact hs.values
    · exact hc.valuesFit32 hs.literals hs.store hs.values

end Sys2Proof.Machine
end

section
/-! SUPPORT. The engine invariant (R34, R156, R159, R202) under each thing a step can do. -/

namespace Sys2Proof.Machine

/-- Outside a run no checkpoint is requested. -/
theorem EngineInv.checkpoint_eq_false {s : State} (h : EngineInv s) (hm : s.mode ≠ .running) :
    s.checkpoint = false := by
  rw [Bool.eq_false_iff]
  exact fun hc => hm (h.paused hc).1

/-- Before a fault and a quit no fault is recorded. -/
theorem EngineInv.fault_isSome_eq_false {s : State} (h : EngineInv s) (hf : s.mode ≠ .faulted)
    (hq : s.mode ≠ .quit) : s.fault.isSome = false := by
  rw [Bool.eq_false_iff]
  exact fun hs => (h.recorded hs).elim hf hq

/-- The invariant of a block that neither faulted, nor runs, nor quit. -/
theorem EngineInv.of_resting {s : State} (hmode : s.mode = .idle ∨ s.mode = .stepping ∨ s.mode = .halted)
    (hfault : s.fault.isSome = false) (hcheck : s.checkpoint = false) (hexit : s.exitCode = none) : EngineInv s := by
  rcases hmode with hm | hm | hm <;> constructor <;> simp [hm, hfault, hcheck, hexit]

theorem EngineInv.dropCommand {s : State} (h : EngineInv s) : EngineInv (dropCommand s) :=
  ⟨h.faulted, h.recorded, h.paused, h.counting, h.exited⟩

theorem EngineInv.quit {s : State} (h : EngineInv s) (hm : s.mode ≠ .running) : EngineInv (quit s) := by
  have hc := h.checkpoint_eq_false hm
  constructor <;> simp [hc]

/-- A run starts from a block without a fault (R155). -/
theorem EngineInv.startRun {s : State} (h : EngineInv s) (hm : s.mode = .idle ∨ s.mode = .stepping) :
    EngineInv (startRun s) := by
  have hf : s.fault.isSome = false := by
    apply h.fault_isSome_eq_false <;> rcases hm with hm | hm <;> simp [hm]
  have he : s.exitCode = none := by
    rcases hm with hm | hm <;> simpa [hm] using h.exited
  constructor <;> simp [hf, he, Config.checkpointInterval]

/-- Both answers, and the wait for one, keep the invariant of a paused run (R156, R162). -/
theorem EngineInv.takeAnswer {s : State} (h : EngineInv s) (hm : s.mode = .running) : EngineInv (takeAnswer s) := by
  have hf : s.fault.isSome = false := h.fault_isSome_eq_false (by simp [hm]) (by simp [hm])
  have he : s.exitCode = none := by simpa [hm] using h.exited
  unfold Machine.takeAnswer
  split
  · exact h
  · exact .of_resting (.inl rfl) hf rfl he
  · constructor <;> simp [hm, hf, he]

/-- A fault entry records the fault and ends the pass, whatever the engine did before (R202, R203). -/
theorem EngineInv.raise {s : State} (h : EngineInv s) (hcheck : s.checkpoint = false) (hquit : s.mode ≠ .quit)
    (kind : FaultKind) (info : Option Text) : EngineInv (raise s kind info) := by
  have he : s.exitCode = none := by simpa [hquit] using h.exited
  constructor <;> simp [hcheck, he]

/-- An instruction keeps the invariant of a block that executes: it keeps the mode, or halts, or faults. -/
theorem EngineInv.exec {i : Instr} {s t : State} (h : EngineInv s) (hcheck : s.checkpoint = false)
    (hfault : s.mode ≠ .faulted) (hquit : s.mode ≠ .quit) (hexec : exec i s = .next t) :
    EngineInv t ∧ t.mode ≠ .quit := by
  obtain ⟨kind, info, -, rfl⟩ | hc := exec_cases hexec
  · exact ⟨h.raise hcheck hquit kind info, by simp⟩
  · obtain ⟨hb, hf, hm | ⟨-, hm⟩⟩ := hc.background
    · refine ⟨⟨?_, ?_, ?_, ?_, ?_⟩, hm ▸ hquit⟩
      · rw [hm, hf]; exact h.faulted
      · rw [hm, hf]; exact h.recorded
      · rw [hb.checkpoint, hm, hb.pauseEnabled, hb.runCount]; exact h.paused
      · rw [hb.checkpoint, hm, hb.pauseEnabled, hb.runCount]; exact h.counting
      · rw [hb.exitCode, hm]; exact h.exited
    · have he : s.exitCode = none := by simpa [hquit] using h.exited
      exact ⟨.of_resting (.inr (.inr hm)) (hf ▸ h.fault_isSome_eq_false hfault hquit) (hb.checkpoint.trans hcheck)
        (hb.exitCode.trans he), by simp [hm]⟩

theorem EngineInv.afterExec {t : State} (h : EngineInv t) (i : Instr) : EngineInv (afterExec i t) := by
  unfold Machine.afterExec
  split
  · exact h
  · exact ⟨h.faulted, h.recorded, h.paused, h.counting, h.exited⟩

@[simp] theorem afterExec_mode (i : Instr) (t : State) : (afterExec i t).mode = t.mode := by
  unfold afterExec
  split <;> rfl

@[simp] theorem afterExec_checkpoint (i : Instr) (t : State) : (afterExec i t).checkpoint = t.checkpoint := by
  unfold afterExec
  split <;> rfl

/-- One pass keeps the invariant, and neither requests a checkpoint itself nor quits (R152). -/
theorem EngineInv.execOne {s u : State} (h : EngineInv s) (hcheck : s.checkpoint = false) (hfault : s.mode ≠ .faulted)
    (hquit : s.mode ≠ .quit) (hone : execOne s = .next u) :
    EngineInv u ∧ u.checkpoint = false ∧ u.mode ≠ .quit := by
  obtain ⟨kind, -, rfl⟩ | ⟨i, t, -, ht, rfl⟩ := execOne_cases hone
  · exact ⟨h.raise hcheck hquit kind none, hcheck, by simp⟩
  · obtain ⟨hinv, hmode⟩ := h.exec hcheck hfault hquit ht
    exact ⟨hinv.afterExec i, by simp [(exec_background ht).checkpoint, hcheck], by simpa using hmode⟩

/-- The end of a single step rests in `Stepping`, unless it halted or faulted (R154). -/
theorem EngineInv.settleStep {u : State} (h : EngineInv u) (hcheck : u.checkpoint = false) (hquit : u.mode ≠ .quit) :
    EngineInv (settleStep u) := by
  unfold Machine.settleStep
  split
  · exact h
  · rename_i hm
    push Not at hm
    exact .of_resting (.inr (.inl rfl)) (h.fault_isSome_eq_false hm.2 hquit) hcheck (by simpa [hquit] using h.exited)

/-- The count after an instruction of a run: below 1000 the run goes on, and at 1000 it requests the checkpoint
(R156). -/
theorem EngineInv.settleRun {u : State} (h : EngineInv u) (hcheck : u.checkpoint = false) :
    EngineInv (settleRun u) := by
  unfold Machine.settleRun
  split
  · rename_i hm
    have hlt : u.pauseEnabled = true → u.runCount < 1000 := fun hp => h.counting hm hp hcheck
    refine ⟨h.faulted, h.recorded, fun hpaused => ?_, fun _ hp hgoing => ?_, h.exited⟩
    · simp only [countInstr_checkpoint, Config.checkpointInterval, Bool.and_eq_true, beq_iff_eq] at hpaused
      obtain ⟨hp, hmod⟩ := hpaused
      refine ⟨hm, hp, ?_⟩
      have := hlt hp
      simp only [countInstr_runCount, Config.checkpointInterval]
      omega
    · have := hlt hp
      have hp' : u.pauseEnabled = true := hp
      simp only [countInstr_checkpoint, Config.checkpointInterval, hp', Bool.true_and, beq_eq_false_iff_ne] at hgoing
      simp only [countInstr_runCount, Config.checkpointInterval]
      omega
  · exact h

/-- Every step keeps the engine invariant. -/
theorem EngineInv.step {s t : State} (h : EngineInv s) (hstep : step s = .next t) : EngineInv t := by
  rcases step_cases hstep with ⟨hm, hready⟩ | ⟨hm, hrunning⟩ | ⟨hm, hended⟩
  · have hmode : s.mode ≠ .running ∧ s.mode ≠ .faulted ∧ s.mode ≠ .quit := by
      rcases hm with hm | hm <;> simp [hm]
    obtain ⟨hrun, hfault, hquit⟩ := hmode
    rcases hready with ⟨-, rfl⟩ | ⟨-, u, hu, rfl⟩ | ⟨-, rfl⟩ | ⟨-, rfl⟩
    · exact h
    · obtain ⟨hinv, hcheck, hmode⟩ := h.dropCommand.execOne (h.checkpoint_eq_false hrun) hfault hquit hu
      exact hinv.settleStep hcheck hmode
    · exact h.dropCommand.startRun hm
    · exact h.dropCommand.quit hrun
  · rcases hrunning with ⟨-, rfl⟩ | ⟨hcheck, u, hu, rfl⟩
    · exact h.takeAnswer hm
    · obtain ⟨hinv, hcheck, -⟩ := h.execOne hcheck (by simp [hm]) (by simp [hm]) hu
      exact hinv.settleRun hcheck
  · have hrun : s.mode ≠ .running := by rcases hm with hm | hm <;> simp [hm]
    rcases hended with ⟨-, rfl⟩ | ⟨-, rfl⟩ | ⟨-, rfl⟩
    · exact h
    · exact h.dropCommand
    · exact h.dropCommand.quit hrun

end Sys2Proof.Machine
end

section
/-! SUPPORT. The reset state, loads and clean launches (R38, R234): the values they start from. -/

namespace Sys2Proof.Machine

/-- A load succeeds exactly for an image of at most 128 loadable records, with the machine of that image (R69, R71). -/
theorem loadImage_eq_ready {p : Params} {image : List Record} {s : State} : loadImage p image = .ready s ↔
    image.length ≤ Config.progSlots ∧ image.all loadable = true ∧ s = withImage p image := by
  unfold loadImage
  split_ifs with hlen hall
  · simp [hlen]
  · simp [not_lt.mp hlen, hall, eq_comm]
  · simp [hall]

/-- Slot `k` of a loaded image (R68). -/
theorem progRead_withImage (p : Params) (image : List Record) (k : Nat) :
    progRead (withImage p image) k = match image[k]? with
      | some r => if r.present then r else Record.empty
      | none   => Record.empty :=
  cellGet_imageCells 0 image k

theorem CleanLaunch.valuesFit32 {s : State} (h : CleanLaunch s) : ValuesFit32 s := by
  rw [h.state]
  exact ⟨fits32_zero, fits32_zero, fun _ => fits32_zero⟩

theorem CleanLaunch.store_eq_nil {s : State} (h : CleanLaunch s) : s.store = [] := congrArg State.store h.state

theorem CleanLaunch.sym_eq_nil {s : State} (h : CleanLaunch s) : s.sym = [] := congrArg State.sym h.state

theorem CleanLaunch.dataInv {s : State} (h : CleanLaunch s) : DataInv s where
  store := by rw [h.store_eq_nil]; rfl
  sym := by rw [h.sym_eq_nil]; rfl
  unique := by simp [SlotsUnique, h.sym_eq_nil]
  vacant := by simp [BoundSlotsVacant, h.sym_eq_nil]
  image := h.image

theorem CleanLaunch.engineInv {s : State} (h : CleanLaunch s) : EngineInv s := by
  rw [h.state]
  exact .of_resting (.inl rfl) rfl rfl rfl

theorem cleanLaunch_reset : CleanLaunch State.reset :=
  ⟨⟨by decide, wf_reset.2.2, by simp [State.reset]⟩, rfl⟩

theorem defaultLiterals_reset : DefaultLiterals State.reset := ⟨by decide, by decide⟩

end Sys2Proof.Machine
end

section
/-! The statements of 10_state.md, settled. -/

namespace Sys2Proof.Machine

/-- Settles O56: the data invariant does not look at the engine, and every instruction keeps it. -/
theorem stepKeepsTheDataInvariant : Obligations.StepKeepsTheDataInvariant :=
  fun _ _ hs h => step_keeps DataInv.engineBlind DataInv.keptByExec h hs

/-- Settles O12: the reset state and every load are the machine of some image (R38). -/
theorem resetValuesOfEveryField : Obligations.ResetValuesOfEveryField := by
  constructor
  · intro s hs
    obtain ⟨p, image, rfl⟩ : ∃ p image, s = withImage p image := by
      rcases hs with rfl | ⟨p, image, hload⟩
      · exact ⟨Params.standard, [], rfl⟩
      · exact ⟨p, image, (loadImage_eq_ready.mp hload).2.2⟩
    exact ⟨rfl, rfl, rfl, rfl, rfl, fun _ => rfl, fun _ => rfl, rfl, rfl, rfl, rfl⟩
  · intro p image s hload
    obtain ⟨-, -, rfl⟩ := loadImage_eq_ready.mp hload
    exact ⟨rfl, progRead_withImage p image⟩

/-- Settles O33, from what each instruction writes. -/
theorem registerInstructionsFrame : Obligations.RegisterInstructionsFrame := by
  intro s t x i hi h
  simp only [List.mem_cons, List.not_mem_nil, or_false] at hi
  have hdata : t.store = s.store ∧ t.sym = s.sym := by
    rcases exec_data h with hd | ⟨n, k, rfl, -⟩ | ⟨n, k, rfl, -⟩
    · exact hd
    · simp at hi
    · simp at hi
  refine ⟨memRead_congr hdata.1, hdata.2, exec_background h, fun hldb hxch => ?_, ?_, fun hadd => exec_flags hadd h⟩
  · rcases exec_regB h with hb | ⟨n, rfl⟩ | rfl
    · exact hb
    · exact absurd (by simpa using hi) hldb
    · exact absurd rfl hxch
  · rintro rfl
    simpa using exec_regA h

/-- Settles O34: STR writes the resolved slot, and no register, flag or binding. -/
theorem storeFrame : Obligations.StoreFrame := by
  intro s t n h
  have hslots : (t.store = s.store ∧ t.sym = s.sym) ∨
      ∃ k, resolve s n = some k ∧ t.store = (memWrite s k s.regA).store ∧ t.sym = s.sym := by
    simpa using exec_data h
  have hA : t.regA = s.regA := by simpa using exec_regA h
  have hB : t.regB = s.regB := by simpa using exec_regB h
  obtain ⟨hzf, hovf⟩ := exec_flags (by simp) h
  refine ⟨fun k hk j hj => ?_, fun hnone j => ?_, hA, hB, hzf, hovf, ?_, exec_background h⟩
  · rcases hslots with ⟨hstore, -⟩ | ⟨k', hk', hstore, -⟩
    · exact memRead_congr hstore j
    · obtain rfl : k' = k := Option.some.inj (hk'.symm.trans hk)
      exact (memRead_congr hstore j).trans (memRead_memWrite_ne hj s.regA)
  · rcases hslots with ⟨hstore, -⟩ | ⟨k, hk, -⟩
    · exact memRead_congr hstore j
    · rw [hnone] at hk; cases hk
  · rcases hslots with ⟨-, hsym⟩ | ⟨-, -, -, hsym⟩ <;> exact hsym

/-- Settles O35, from what each instruction writes. -/
theorem controlInstructionsFrame : Obligations.ControlInstructionsFrame := by
  intro s t x i hi h
  simp only [List.mem_cons, List.not_mem_nil, or_false] at hi
  have hA : t.regA = s.regA := by
    rcases exec_regA h with ha | ⟨n, rfl⟩ | ⟨l, rfl⟩ | rfl | rfl
    · exact ha
    all_goals simp at hi
  have hB : t.regB = s.regB := by
    rcases exec_regB h with hb | ⟨n, rfl⟩ | rfl
    · exact hb
    all_goals simp at hi
  obtain ⟨hzf, hovf⟩ := exec_flags (by rintro rfl; simp at hi) h
  have hdata : t.store = s.store ∧ (t.sym = s.sym ∨ i = .dec x ∧ ∃ k, t.sym = symSet s.sym x k) := by
    rcases exec_data h with ⟨hstore, hsym⟩ | ⟨n, k, rfl, -, hstore, hsym⟩ | ⟨n, k, rfl, -⟩
    · exact ⟨hstore, .inl hsym⟩
    · obtain rfl : n = x := by simpa using hi
      exact ⟨hstore, .inr ⟨rfl, k, hsym⟩⟩
    · simp at hi
  obtain ⟨hstore, hsym⟩ := hdata
  refine ⟨hA, hB, hzf, hovf, memRead_congr hstore, exec_background h, fun hdec => ?_, fun m hm => ?_⟩
  · exact hsym.resolve_right fun hbind => hdec hbind.1
  · rcases hsym with hsym | ⟨-, k, hsym⟩
    · rw [hsym]
    · rw [hsym, symGet_symSet_ne hm]

/-- Settles O36: the fault entry keeps `pc`, and each completion writes its own. -/
theorem pcAfterEachInstruction : Obligations.PcAfterEachInstruction := by
  constructor
  · intro i s t h
    obtain ⟨kind, info, -, rfl⟩ | hc := exec_cases h
    · exact .inl ⟨rfl, kind, info, raise_faultEntry s kind info⟩
    · right
      cases i with
      | dec n | lda n | ldb n | ldi l | str n | add => obtain ⟨k, -, rfl⟩ := hc; rfl
      | xch | hlt => obtain rfl := hc; rfl
      | jmp l => obtain ⟨v, hv, rfl⟩ := hc; exact hv
      | jzs l | jvs l =>
        obtain ⟨v, hv, rfl⟩ := hc
        dsimp only
        split
        · exact hv
        · rfl
  · intro s hlo hhi hlen
    rw [BitVec.toInt_add, show (1 : Word).toInt = 1 by decide]
    exact Int.bmod_eq_of_le (by norm_num; omega) (by norm_num; omega)

/-- Settles O37: flags are written by ADD alone, and each is read by one jump alone; ADD only keeps them. -/
theorem flagAccessTable : Obligations.FlagAccessTable :=
  ⟨fun _ _ _ hi h => exec_flags hi h, fun _ _ _ b hi h => exec_zf_irrelevant b hi h,
    fun _ _ _ b hi h => exec_ovf_irrelevant b hi h⟩

/-- Settles O38: the writers of each register, and that no other instruction's result depends on it. -/
theorem registerAccessTable : Obligations.RegisterAccessTable :=
  ⟨fun _ _ _ h => ⟨exec_regA h, exec_regB h⟩,
    fun _ _ _ v hstr hxch hadd h => exec_regA_irrelevant v hstr hxch hadd h,
    fun _ _ _ v hxch hadd h => exec_regB_irrelevant v hxch hadd h⟩

/-- Settles O54: an instruction leaves the background as it was, and the rest of a step writes engine fields only. -/
theorem noStepWritesProgramMemory : Obligations.NoStepWritesProgramMemory := by
  intro s t h
  refine step_keeps (P := fun u => u.prog = s.prog ∧ u.progLen = s.progLen ∧ u.params = s.params) ?_ ?_ h
    ⟨rfl, rfl, rfl⟩
  · rintro u v hd ⟨hprog, hlen, hparams⟩
    exact ⟨hd.prog.trans hprog, hd.progLen.trans hlen, hd.params.trans hparams⟩
  · rintro i u v hexec ⟨hprog, hlen, hparams⟩
    have hb := exec_background hexec
    exact ⟨hb.prog.trans hprog, hb.progLen.trans hlen, hb.params.trans hparams⟩

/-- Settles O57, by the modes and what each lets a step do. -/
theorem stepKeepsTheEngineInvariant : Obligations.StepKeepsTheEngineInvariant :=
  fun _ _ hs h => hs.step h

/-- Settles O58: the range does not look at the engine, and every instruction keeps it. -/
theorem stepKeepsValuesWithin32Bits : Obligations.StepKeepsValuesWithin32Bits :=
  fun _ _ hliterals hstore hvalues h =>
    (step_keeps Within32Bits.engineBlind Within32Bits.keptByExec h ⟨hliterals, hstore, hvalues⟩).values

/-- Settles O59: a clean launch starts within the range, every step keeps it, and a value within it is the sign
extension of its lower half. -/
theorem reachableValuesAreSignExtended : Obligations.ReachableValuesAreSignExtended := by
  intro k s t hlaunch hliterals hrun
  have hstart : Within32Bits s := ⟨hliterals, hlaunch.dataInv.store, hlaunch.valuesFit32⟩
  have hvalues := (run_keeps Within32Bits.engineBlind Within32Bits.keptByExec hrun hstart).values
  obtain ⟨hA, hB, hslots⟩ := hvalues
  refine ⟨⟨hA, hB, hslots⟩, ?_⟩
  rintro v (rfl | rfl | ⟨j, rfl⟩)
  · exact hA.signExtend_setWidth
  · exact hB.signExtend_setWidth
  · exact (hslots j).signExtend_setWidth

/-- Settles O13: the reset state is a clean launch, and a clean launch meets the invariants. -/
theorem resetMeetsTheInvariants : Obligations.ResetMeetsTheInvariants :=
  ⟨cleanLaunch_reset, cleanLaunch_reset.dataInv, cleanLaunch_reset.engineInv, defaultLiterals_reset,
    cleanLaunch_reset.valuesFit32⟩

end Sys2Proof.Machine
end

section
/-! SUPPORT. The program-memory record (R63, R71): a header is its present bit and its tag, the decoder reads exactly
the encoder's records as instructions, and what the loader may leave in a slot. -/

namespace Sys2Proof

/-! ### The two fields of a header -/

/-- A header is `present ++ op` (R63). -/
theorem Record.header_toNat (r : Record) : r.header.toNat = 16 * r.present.toNat + r.tag.toNat := by
  have hsplit : ∀ h : BitVec 5, h.toNat = 16 * (h.getLsbD 4).toNat + (h.extractLsb' 0 4).toNat := by decide
  exact hsplit r.header

theorem Record.present_eq_false_iff {r : Record} : r.present = false ↔ r.header.toNat < 16 := by
  have hsplit := r.header_toNat
  have htag := r.tag.isLt
  cases hp : r.present with
  | false => simpa [hsplit, hp] using htag
  | true => simp [hsplit, hp]

/-- A present record's tag is what its header exceeds 16 by. -/
theorem Record.header_of_present {r : Record} (h : r.present = true) : r.header.toNat = 16 + r.tag.toNat := by
  simpa [h] using r.header_toNat

/-! ### Decoding -/

theorem decodeWith_eq_instr {tag : BitVec 4} {f : Text → Instr} {operand : Option Text} {i : Instr} :
    decodeWith tag f operand = .instr i ↔ ∃ t, operand = some t ∧ i = f t := by
  cases operand <;> simp [decodeWith, eq_comm]

theorem decodeBare_eq_instr {tag : BitVec 4} {j : Instr} {operand : Option Text} {i : Instr} :
    decodeBare tag j operand = .instr i ↔ operand = none ∧ i = j := by
  cases operand <;> simp [decodeBare, eq_comm]

/-- The tag table answers `i` only for the tag and the operand field of `i`'s record (R63). -/
theorem header_operand_of_decodeTag {tag : BitVec 4} {operand : Option Text} {i : Instr}
    (h : decodeTag tag operand = .instr i) : i.header.toNat = 16 + tag.toNat ∧ i.operand = operand := by
  unfold decodeTag at h
  split at h
  case h_6 htag | h_10 htag | h_11 htag =>
    obtain ⟨rfl, rfl⟩ := decodeBare_eq_instr.mp h
    exact ⟨by rw [htag]; rfl, rfl⟩
  case h_12 => cases h
  all_goals
    rename_i htag
    obtain ⟨t, rfl, rfl⟩ := decodeWith_eq_instr.mp h
    exact ⟨by rw [htag]; rfl, rfl⟩

theorem decodeTag_ne_empty (tag : BitVec 4) (operand : Option Text) : decodeTag tag operand ≠ .empty := by
  unfold decodeTag
  split <;> cases operand <;> simp [decodeWith, decodeBare]

/-- Tags 11 to 15 are unused (R71). -/
theorem decodeTag_unused {tag : BitVec 4} {operand : Option Text} (h : 11 ≤ tag.toNat) :
    decodeTag tag operand = .reservedTag tag := by
  unfold decodeTag
  split
  case h_12 => rfl
  all_goals omega

theorem decode_of_present {r : Record} (h : r.present = true) : decode r = decodeTag r.tag r.operand := by
  simp [decode, h]

theorem decode_eq_empty_iff {r : Record} : decode r = .empty ↔ r.present = false := by
  cases hp : r.present with
  | false => simp [decode, hp]
  | true => simpa [decode_of_present hp] using decodeTag_ne_empty r.tag r.operand

/-- The record of every instruction decodes to it (R63). -/
@[simp] theorem decode_encode (i : Instr) : decode (encode i) = .instr i := by
  cases i with
  | dec n => exact Laws.DecodeEncode.dec n
  | lda n => exact Laws.DecodeEncode.lda n
  | ldb n => exact Laws.DecodeEncode.ldb n
  | ldi l => exact Laws.DecodeEncode.ldi l
  | str n => exact Laws.DecodeEncode.str n
  | xch => exact Laws.DecodeEncode.xch
  | jmp t => exact Laws.DecodeEncode.jmp t
  | jzs t => exact Laws.DecodeEncode.jzs t
  | jvs t => exact Laws.DecodeEncode.jvs t
  | add => exact Laws.DecodeEncode.add
  | hlt => exact Laws.DecodeEncode.hlt

/-- No other record decodes to it (R63; log 6). -/
theorem decode_eq_instr_iff {r : Record} {i : Instr} : decode r = .instr i ↔ r = encode i := by
  refine ⟨fun h => ?_, fun h => h ▸ decode_encode i⟩
  cases hp : r.present with
  | false => simp [decode, hp] at h
  | true =>
    rw [decode_of_present hp] at h
    obtain ⟨hheader, hoperand⟩ := header_operand_of_decodeTag h
    have heq : r.header = i.header := BitVec.eq_of_toNat_eq ((Record.header_of_present hp).trans hheader.symm)
    cases r
    simp_all [encode]

@[simp] theorem present_encode (i : Instr) : (encode i).present = true := by
  have hne : decode (encode i) ≠ .empty := by simp
  rw [Ne, decode_eq_empty_iff] at hne
  simpa using hne

/-- A present record of an unused tag is rejected by name (R71). -/
theorem decode_unusedTag {r : Record} (hp : r.present = true) (h : 11 ≤ r.tag.toNat) :
    decode r = .reservedTag r.tag := by
  rw [decode_of_present hp, decodeTag_unused h]

namespace Machine

/-- What the loader may leave in a slot: nothing, or an instruction (R63, R71). -/
theorem loadable_iff {r : Record} : loadable r = true ↔ r.present = false ∨ ∃ i, decode r = .instr i := by
  rw [← decode_eq_empty_iff]
  unfold loadable
  cases decode r <;> simp

end Machine

end Sys2Proof
end

section
/-! SUPPORT. The text line (R61 to R65, R67, R70): the record the loader makes of it. -/

namespace Sys2Proof

/-- How the loader takes an instruction's operand from its line (R64, R65, R67). -/
def Instr.operandClass : Instr → OperandClass
  | .dec _ | .lda _ | .ldb _ | .ldi _ | .str _ => .token
  | .jmp _ | .jzs _ | .jvs _ => .rest
  | .xch | .add | .hlt => .none

/-- The opcode list holds one row for each mnemonic, with the instruction's header and operand class (R61, R63). -/
theorem find_opcodeRow (i : Instr) : opcodeRows.find? (fun row => row.mnemonic == i.mnemonic) =
    some ⟨i.mnemonic, i.header, i.operandClass⟩ := by
  cases i <;> rfl

/-- Each row of the opcode list, with any operand read by its class, is the record of an instruction (R63). -/
theorem row_record_eq_encode {row : OpcodeRow} (h : row ∈ opcodeRows) (rest : Text) :
    ∃ i, (⟨row.header, loadOperand rest row.operands⟩ : Record) = encode i := by
  simp only [opcodeRows, List.mem_cons, List.not_mem_nil, or_false] at h
  rcases h with rfl | rfl | rfl | rfl | rfl | rfl | rfl | rfl | rfl | rfl | rfl
  · exact ⟨.dec (firstToken rest), rfl⟩
  · exact ⟨.lda (firstToken rest), rfl⟩
  · exact ⟨.ldb (firstToken rest), rfl⟩
  · exact ⟨.ldi (firstToken rest), rfl⟩
  · exact ⟨.str (firstToken rest), rfl⟩
  · exact ⟨.xch, rfl⟩
  · exact ⟨.jmp rest, rfl⟩
  · exact ⟨.jzs rest, rfl⟩
  · exact ⟨.jvs rest, rfl⟩
  · exact ⟨.add, rfl⟩
  · exact ⟨.hlt, rfl⟩

/-- The loader makes an instruction's record of a line whose opcode token is a mnemonic, and `EMPTY` of any other
(R62, R70). -/
theorem parseLine_cases (line : Text) :
    (opcodeToken line ∈ opcodeRows.map OpcodeRow.mnemonic ∧ ∃ i, parseLine line = encode i) ∨
    (opcodeToken line ∉ opcodeRows.map OpcodeRow.mnemonic ∧ parseLine line = Record.empty) := by
  unfold parseLine
  cases hfind : opcodeRows.find? (fun row => row.mnemonic == opcodeToken line) with
  | some row =>
    have hrow := List.mem_of_find?_eq_some hfind
    have htoken : row.mnemonic = opcodeToken line := by simpa using List.find?_some hfind
    exact .inl ⟨htoken ▸ List.mem_map_of_mem hrow, row_record_eq_encode hrow _⟩
  | none => exact .inr ⟨by simpa [List.find?_eq_none] using hfind, rfl⟩

/-- No line is illegal (R71). -/
theorem Machine.loadable_parseLine (line : Text) : loadable (parseLine line) = true := by
  rcases parseLine_cases line with ⟨-, i, h⟩ | ⟨-, h⟩ <;> rw [h]
  · exact loadable_iff.mpr (.inr ⟨i, decode_encode i⟩)
  · rfl

/-! ### Lines that begin with a mnemonic -/

/-- What can follow an opcode token: nothing, or a space and any text (R61). -/
def Separated (rest : Text) : Prop := ∀ c ∈ rest.head?, c = ' '

theorem separated_nil : Separated [] := by simp [Separated]

theorem separated_cons (t : Text) : Separated (' ' :: t) := by simp [Separated]

/-- A token ends at a space or at the end of the line (R62, R64). -/
theorem takeWhile_token {n rest : Text} (hn : ' ' ∉ n) (hrest : Separated rest) :
    (n ++ rest).takeWhile (· != ' ') = n ∧ (n ++ rest).dropWhile (· != ' ') = rest := by
  have hall : ∀ c ∈ n, (c != ' ') = true := fun c hc => by simpa using fun h : c = ' ' => hn (h ▸ hc)
  have hstop : rest.takeWhile (· != ' ') = [] ∧ rest.dropWhile (· != ' ') = rest := by
    cases rest with
    | nil => exact ⟨rfl, rfl⟩
    | cons c t =>
      obtain rfl : c = ' ' := hrest c rfl
      exact ⟨rfl, rfl⟩
  rw [List.takeWhile_append_of_pos hall, List.dropWhile_append_of_pos hall, hstop.1, hstop.2]
  exact ⟨List.append_nil n, rfl⟩

theorem space_notMem_mnemonic (i : Instr) : ' ' ∉ i.mnemonic := by
  cases i <;> simp [Instr.mnemonic]

/-- The record of a line that begins with the mnemonic of `i` (R62). -/
theorem parseLine_mnemonic_append (i : Instr) {rest : Text} (hrest : Separated rest) :
    parseLine (i.mnemonic ++ rest) = ⟨i.header, loadOperand rest i.operandClass⟩ := by
  obtain ⟨htoken, hafter⟩ := takeWhile_token (space_notMem_mnemonic i) hrest
  simp only [parseLine, opcodeToken, afterOpcode, htoken, hafter, find_opcodeRow]

/-- A token operand ends at the next space or at the end of the line (R64). -/
theorem firstToken_append {n rest : Text} (hn : ' ' ∉ n) (hrest : Separated rest) :
    firstToken (' ' :: (n ++ rest)) = n :=
  (takeWhile_token hn hrest).1

/-- The line of `i` loads as `i` where the loader reads `i`'s operand from it. -/
theorem parseLine_eq_encode {i : Instr} {rest : Text} (hrest : Separated rest)
    (hoperand : loadOperand rest i.operandClass = i.operand) : parseLine (i.mnemonic ++ rest) = encode i := by
  rw [parseLine_mnemonic_append i hrest, hoperand, encode]

/-- A token operand is read whatever follows it (R64). -/
theorem parseLine_token {i : Instr} {n rest : Text} (hclass : i.operandClass = .token) (hop : i.operand = some n)
    (hn : ' ' ∉ n) (hrest : Separated rest) : parseLine (i.mnemonic ++ ' ' :: (n ++ rest)) = encode i :=
  parseLine_eq_encode (separated_cons _) (by rw [hclass, hop, loadOperand, firstToken_append hn hrest])

/-- A line that ends after its opcode has the empty token (R64). -/
theorem parseLine_noToken {i : Instr} (hclass : i.operandClass = .token) (hop : i.operand = some []) :
    parseLine i.mnemonic = encode i := by
  simpa using parseLine_eq_encode (i := i) separated_nil (by rw [hclass, hop]; rfl)

/-- A jump operand is all that follows the opcode (R65). -/
theorem parseLine_rest {i : Instr} {rest : Text} (hclass : i.operandClass = .rest) (hop : i.operand = some rest)
    (hrest : Separated rest) : parseLine (i.mnemonic ++ rest) = encode i :=
  parseLine_eq_encode hrest (by rw [hclass, hop, loadOperand])

/-- XCH, ADD and HLT have no operand, whatever follows (R67). -/
theorem parseLine_bare {i : Instr} {rest : Text} (hclass : i.operandClass = .none) (hop : i.operand = none)
    (hrest : Separated rest) : parseLine (i.mnemonic ++ rest) = encode i :=
  parseLine_eq_encode hrest (by rw [hclass, hop, loadOperand])

/-! ### Rendered lines -/

theorem space_notMem_of_tokenWf {t : Text} (h : tokenWf t = true) : ' ' ∉ t := by
  intro hmem
  simpa using List.all_eq_true.mp h _ hmem

theorem separated_of_restWf {t : Text} (h : restWf t = true) : Separated t := by
  cases t with
  | nil => exact separated_nil
  | cons c t => simp_all [restWf, Separated]

/-- The loader's record of the text line of a well-formed instruction is that instruction's record. -/
theorem parseLine_renderLine {i : Instr} (h : i.wf = true) : parseLine (renderLine i) = encode i := by
  cases i with
  | dec n | lda n | ldb n | ldi n | str n =>
    simpa [renderLine] using parseLine_token rfl rfl (space_notMem_of_tokenWf h) separated_nil
  | jmp t | jzs t | jvs t => exact parseLine_rest rfl rfl (separated_of_restWf h)
  | xch => exact parseLine_bare (i := .xch) rfl rfl separated_nil
  | add => exact parseLine_bare (i := .add) rfl rfl separated_nil
  | hlt => exact parseLine_bare (i := .hlt) rfl rfl separated_nil

theorem lineFeed_notMem_of_tokenWf {t : Text} (h : tokenWf t = true) : '\n' ∉ t := by
  intro hmem
  simpa using List.all_eq_true.mp h _ hmem

theorem lineFeed_notMem_of_restWf {t : Text} (h : restWf t = true) : '\n' ∉ t := by
  cases t with
  | nil => simp
  | cons c t =>
    simp only [restWf, Bool.and_eq_true, beq_iff_eq, List.all_eq_true] at h
    obtain ⟨rfl, hall⟩ := h
    simpa using fun hmem => by simpa using hall _ hmem

/-- The text line of a well-formed instruction is one line (R75). -/
theorem lineFeed_notMem_renderLine {i : Instr} (h : i.wf = true) : '\n' ∉ renderLine i := by
  have hmnemonic : '\n' ∉ i.mnemonic := by cases i <;> simp [Instr.mnemonic]
  cases i with
  | dec n | lda n | ldb n | ldi n | str n => simpa [renderLine, hmnemonic] using lineFeed_notMem_of_tokenWf h
  | jmp t | jzs t | jvs t => simpa [renderLine, hmnemonic] using lineFeed_notMem_of_restWf h
  | xch | add | hlt => exact hmnemonic

end Sys2Proof
end

section
/-! SUPPORT. The lines of a program text (R75). -/

namespace Sys2Proof

/-- Characters other than LF go on the current line. -/
theorem splitLinesFrom_append {l : Text} (h : '\n' ∉ l) (acc rest : Text) :
    splitLinesFrom acc (l ++ rest) = splitLinesFrom (l.reverse ++ acc) rest := by
  induction l generalizing acc with
  | nil => rfl
  | cons c l ih =>
    simp only [List.mem_cons, not_or] at h
    simp [splitLinesFrom, ih h.2, Ne.symm h.1]

/-- An LF ends the first line of a text. -/
theorem splitLines_append_lineFeed {l : Text} (h : '\n' ∉ l) (rest : Text) :
    splitLines (l ++ '\n' :: rest) = (dropCr l.reverse).reverse :: splitLines rest := by
  rw [splitLines, splitLinesFrom_append h, List.append_nil, splitLinesFrom, if_pos rfl, splitLines]

/-- A line that does not end in CR is kept whole. -/
theorem dropCr_reverse_of_ne {l : Text} (h : l.getLast? ≠ some '\r') : (dropCr l.reverse).reverse = l := by
  rw [← List.head?_reverse] at h
  cases hl : l.reverse with
  | nil => simpa [dropCr] using hl.symm
  | cons c cs =>
    rw [hl] at h
    rw [dropCr, if_neg (by simpa using h), ← hl, List.reverse_reverse]

/-- Lines ended by LF stand before the lines of what follows. -/
theorem splitLines_renderFile_append {lines : List Text} (hlf : ∀ l ∈ lines, '\n' ∉ l)
    (hcr : ∀ l ∈ lines, l.getLast? ≠ some '\r') (rest : Text) :
    splitLines (renderFile lines ++ rest) = lines ++ splitLines rest := by
  induction lines with
  | nil => rfl
  | cons l lines ih =>
    rw [List.forall_mem_cons] at hlf hcr
    have htext : renderFile (l :: lines) ++ rest = l ++ '\n' :: (renderFile lines ++ rest) := by simp [renderFile]
    rw [htext, splitLines_append_lineFeed hlf.1, dropCr_reverse_of_ne hcr.1, ih hlf.2 hcr.2, List.cons_append]

/-- A final LF starts no further line. -/
theorem splitLines_renderFile {lines : List Text} (hlf : ∀ l ∈ lines, '\n' ∉ l)
    (hcr : ∀ l ∈ lines, l.getLast? ≠ some '\r') : splitLines (renderFile lines) = lines := by
  have h := splitLines_renderFile_append hlf hcr []
  rwa [List.append_nil, show splitLines [] = [] from rfl, List.append_nil] at h

/-- A last line without LF counts. -/
theorem splitLines_unterminated {last : Text} (hne : last ≠ []) (hlf : '\n' ∉ last) : splitLines last = [last] := by
  have h := splitLinesFrom_append hlf [] []
  rw [List.append_nil, List.append_nil] at h
  rw [splitLines, h, splitLinesFrom, if_neg (by simpa using hne), List.reverse_reverse]

/-- One CR before each LF goes with it. -/
theorem splitLines_crlf {lines : List Text} (hlf : ∀ l ∈ lines, '\n' ∉ l) :
    splitLines (lines.flatMap (· ++ ['\r', '\n'])) = lines := by
  induction lines with
  | nil => rfl
  | cons l lines ih =>
    rw [List.forall_mem_cons] at hlf
    have htext : (l :: lines).flatMap (· ++ ['\r', '\n']) =
        (l ++ ['\r']) ++ '\n' :: lines.flatMap (· ++ ['\r', '\n']) := by simp
    have hline : '\n' ∉ l ++ ['\r'] := by simpa using hlf.1
    rw [htext, splitLines_append_lineFeed hline, ih hlf.2]
    simp [dropCr]

end Sys2Proof
end

section
/-! SUPPORT. The literal parser (R66): what it accepts, and the decimal text of a value. -/

namespace Sys2Proof.Machine

/-! ### Digits -/

theorem isDigit_iff {c : Char} : isDigit c = true ↔ '0' ≤ c ∧ c ≤ '9' := by
  simp only [isDigit, Bool.and_eq_true, decide_eq_true_eq]
  rfl

/-- The number that a string of digits writes, after the digits that `v` stands for (R66). -/
def decimalValue (v : Nat) (digits : Text) : Nat := digits.foldl (fun acc c => 10 * acc + digitVal c) v

/-- The digit loop answers for strings of digits only, and answers the number written. -/
theorem digitsValue_eq_some {v n : Nat} {t : Text} :
    digitsValue v t = some n ↔ (∀ c ∈ t, isDigit c = true) ∧ n = decimalValue v t := by
  induction t generalizing v with
  | nil => simp [digitsValue, decimalValue, eq_comm (a := v)]
  | cons c t ih =>
    rw [digitsValue, List.forall_mem_cons]
    by_cases hc : isDigit c = true
    · simp [hc, ih, decimalValue]
    · simp [hc]

theorem parseDigits_eq_some {n : Nat} {t : Text} :
    parseDigits t = some n ↔ t ≠ [] ∧ (∀ c ∈ t, isDigit c = true) ∧ n = decimalValue 0 t := by
  cases t with
  | nil => simp [parseDigits]
  | cons c t => simp [parseDigits, digitsValue_eq_some]

/-- The integer loop of R66's grammar computes the number written. -/
theorem foldl_eq_decimalValue {t : Text} (h : ∀ c ∈ t, isDigit c = true) (v : Nat) :
    t.foldl (fun acc c => 10 * acc + ((c.toNat : Int) - 48)) v = decimalValue v t := by
  induction t generalizing v with
  | nil => rfl
  | cons c t ih =>
    rw [List.forall_mem_cons] at h
    have hge : 48 ≤ c.toNat := (isDigit_iff.mp h.1).1
    have hdigit : 10 * (v : Int) + ((c.toNat : Int) - 48) = ((10 * v + digitVal c : Nat) : Int) := by
      have hval : digitVal c = c.toNat - 48 := rfl
      omega
    rw [List.foldl_cons, hdigit, ih h.2]
    rfl

/-! ### Blanks and sign -/

theorem skipBlanks_append {blanks : Text} (h : ∀ c ∈ blanks, c = ' ' ∨ c = '\t') (t : Text) :
    skipBlanks (blanks ++ t) = skipBlanks t := by
  induction blanks with
  | nil => rfl
  | cons c blanks ih =>
    rw [List.forall_mem_cons] at h
    rw [List.cons_append, skipBlanks, if_pos h.1, ih h.2]

/-- What is skipped is blanks. -/
theorem exists_blanks_append_skipBlanks (t : Text) :
    ∃ blanks, (∀ c ∈ blanks, c = ' ' ∨ c = '\t') ∧ t = blanks ++ skipBlanks t := by
  induction t with
  | nil => exact ⟨[], by simp, rfl⟩
  | cons c t ih =>
    by_cases hc : c = ' ' ∨ c = '\t'
    · obtain ⟨blanks, hblanks, ht⟩ := ih
      refine ⟨c :: blanks, List.forall_mem_cons.mpr ⟨hc, hblanks⟩, ?_⟩
      rw [skipBlanks, if_pos hc, List.cons_append, ← ht]
    · exact ⟨[], by simp, by rw [skipBlanks, if_neg hc, List.nil_append]⟩

/-- The optional sign of a literal (R66). -/
def signText (neg : Bool) : Text := if neg then ['-'] else []

/-- The value of a literal's sign and digits (R66). -/
def signedValue (neg : Bool) (digits : Text) : Int := (if neg then -1 else 1) * (decimalValue 0 digits : Int)

/-- A literal without blanks is read as its sign and digits. -/
theorem parseSigned_of_digits {blanks digits : Text} (neg : Bool) (hblanks : ∀ c ∈ blanks, c = ' ' ∨ c = '\t')
    (hne : digits ≠ []) (hdigits : ∀ c ∈ digits, isDigit c = true) :
    parseSigned (blanks ++ (signText neg ++ digits)) = some (signedValue neg digits) := by
  have hparse : parseDigits digits = some (decimalValue 0 digits) := parseDigits_eq_some.mpr ⟨hne, hdigits, rfl⟩
  rw [parseSigned, skipBlanks_append hblanks]
  cases neg with
  | true => simp [signText, signedValue, skipBlanks, hparse]
  | false =>
    obtain ⟨c, cs, rfl⟩ := List.exists_cons_of_ne_nil hne
    have hc : isDigit c = true := hdigits c List.mem_cons_self
    have hblank : ¬ (c = ' ' ∨ c = '\t') := by rintro (rfl | rfl) <;> revert hc <;> decide
    have hminus : c ≠ '-' := by rintro rfl; revert hc; decide
    simp [signText, signedValue, skipBlanks, hblank, hminus, hparse]

/-- `parseSigned` reads exactly the literals of R66's grammar, with the number written. -/
theorem parseSigned_eq_some {t : Text} {x : Int} : parseSigned t = some x ↔
    ∃ (blanks digits : Text) (neg : Bool), t = blanks ++ (signText neg ++ digits) ∧
      (∀ c ∈ blanks, c = ' ' ∨ c = '\t') ∧ digits ≠ [] ∧ (∀ c ∈ digits, isDigit c = true) ∧ x = signedValue neg digits := by
  constructor
  · intro h
    obtain ⟨blanks, hblanks, ht⟩ := exists_blanks_append_skipBlanks t
    unfold parseSigned at h
    split at h
    · cases h
    · rename_i c cs hskip
      rw [hskip] at ht
      split at h
      · subst c
        obtain ⟨n, hn, rfl⟩ := Option.map_eq_some_iff.mp h
        obtain ⟨hne, hdigits, rfl⟩ := parseDigits_eq_some.mp hn
        exact ⟨blanks, cs, true, ht, hblanks, hne, hdigits, by simp [signedValue]⟩
      · obtain ⟨n, hn, rfl⟩ := Option.map_eq_some_iff.mp h
        obtain ⟨hne, hdigits, rfl⟩ := parseDigits_eq_some.mp hn
        exact ⟨blanks, c :: cs, false, ht, hblanks, hne, hdigits, by simp [signedValue]⟩
  · rintro ⟨blanks, digits, neg, rfl, hblanks, hne, hdigits, rfl⟩
    exact parseSigned_of_digits neg hblanks hne hdigits

/-! ### The range test -/

/-- The range test leaves a number that a register holds (R66, R113). -/
theorem parseInt_eq_some {p : Params} {t : Text} {v : Word} : parseInt p t = some v ↔
    ∃ x, parseSigned t = some x ∧ p.litMin.toInt ≤ x ∧ x ≤ p.litMax.toInt ∧ v.toInt = x := by
  unfold parseInt
  cases parseSigned t with
  | none => simp
  | some x =>
    have hmin := BitVec.le_toInt p.litMin
    have hmax := BitVec.toInt_lt (x := p.litMax)
    by_cases hrange : x < p.litMin.toInt ∨ x > p.litMax.toInt
    · simp only [if_pos hrange, reduceCtorEq, Option.some.injEq, exists_eq_left', false_iff]
      omega
    · have hexact : (BitVec.ofInt 64 x).toInt = x := by
        rw [BitVec.toInt_ofInt]
        exact Int.bmod_eq_of_le (by norm_num at *; omega) (by norm_num at *; omega)
      simp only [if_neg hrange, Option.some.injEq, exists_eq_left']
      rw [← BitVec.toInt_inj, hexact]
      omega

/-! ### Decimal text -/

/-- `t` is a string of digits that writes `n` (R66). -/
structure WritesNat (t : Text) (n : Nat) : Prop where
  ne_nil : t ≠ []
  digits : ∀ c ∈ t, isDigit c = true
  value  : decimalValue 0 t = n

/-- The character of a digit is one, with that value. -/
theorem isDigit_ofNat {d : Nat} (h : d < 10) :
    isDigit (Char.ofNat ('0'.toNat + d)) = true ∧ digitVal (Char.ofNat ('0'.toNat + d)) = d := by
  have hall : ∀ e < 10, isDigit (Char.ofNat ('0'.toNat + e)) = true ∧
      digitVal (Char.ofNat ('0'.toNat + e)) = e := by decide
  exact hall d h

theorem writesNat_singleton {d : Nat} (h : d < 10) : WritesNat [Char.ofNat ('0'.toNat + d)] d where
  ne_nil := List.cons_ne_nil _ _
  digits := List.forall_mem_singleton.mpr (isDigit_ofNat h).1
  value := (Nat.zero_add _).trans (isDigit_ofNat h).2

theorem WritesNat.concat {t : Text} {n d : Nat} (ht : WritesNat t n) (h : d < 10) :
    WritesNat (t ++ [Char.ofNat ('0'.toNat + d)]) (10 * n + d) where
  ne_nil := List.append_ne_nil_of_left_ne_nil ht.ne_nil _
  digits := List.forall_mem_append.mpr ⟨ht.digits, (writesNat_singleton h).digits⟩
  value := by
    obtain rfl := ht.value
    rw [decimalValue, List.foldl_append]
    exact congrArg (10 * decimalValue 0 t + ·) (isDigit_ofNat h).2

/-- The digits of `n`, with one unit of fuel for each, write `n`. -/
theorem writesNat_natDigits {fuel n : Nat} (h : n < 10 ^ (fuel + 1)) : WritesNat (natDigits (fuel + 1) n) n := by
  induction fuel generalizing n with
  | zero =>
    have hlt : n < 10 := by simpa using h
    rw [natDigits, if_pos hlt]
    exact writesNat_singleton hlt
  | succ fuel ih =>
    rw [natDigits]
    split
    · exact writesNat_singleton ‹_›
    · have hlow : WritesNat (natDigits (fuel + 1) (n / 10)) (n / 10) := ih (by rw [pow_succ] at h; omega)
      simpa only [Nat.div_add_mod] using hlow.concat (Nat.mod_lt n (by omega : 0 < 10))

/-- The decimal text of a value is its sign and digits, and writes that value. -/
theorem decimal_spec (v : Word) : ∃ (digits : Text) (neg : Bool), decimal v.toInt = signText neg ++ digits ∧
    digits ≠ [] ∧ (∀ c ∈ digits, isDigit c = true) ∧ signedValue neg digits = v.toInt := by
  have hmin := BitVec.le_toInt v
  have hmax := BitVec.toInt_lt (x := v)
  have hwrites : WritesNat (natDigits 20 v.toInt.natAbs) v.toInt.natAbs :=
    writesNat_natDigits (by norm_num at *; omega)
  refine ⟨natDigits 20 v.toInt.natAbs, decide (v.toInt < 0), ?_, hwrites.ne_nil, hwrites.digits, ?_⟩
  · by_cases hneg : v.toInt < 0 <;> simp [decimal, signText, hneg]
  · rw [signedValue, hwrites.value]
    by_cases hneg : v.toInt < 0
    · rw [if_pos (by simpa using hneg)]
      omega
    · rw [if_neg (by simpa using hneg)]
      omega

end Sys2Proof.Machine
end

section
/-! SUPPORT. Loads (R68, R69, R71) and the steps from a loader image (R163). -/

namespace Sys2Proof.Machine

/-- A text of at most 128 lines loads as the image of its lines' records: no line is illegal (R69, R71). -/
theorem loadText_eq_ready {p : Params} {file : Text} (h : (splitLines file).length ≤ 128) :
    loadText p file = .ready (withImage p ((splitLines file).map parseLine)) := by
  refine loadImage_eq_ready.mpr ⟨by simpa [Config.progSlots] using h, ?_, rfl⟩
  simp [loadable_parseLine]

/-- Slot `k` of a loaded text holds the record of line `k` (R68). -/
theorem progRead_withLines (p : Params) (lines : List Text) (k : Nat) :
    progRead (withImage p (lines.map parseLine)) k = match lines[k]? with
      | some line => parseLine line
      | none      => Record.empty := by
  rw [progRead_withImage, List.getElem?_map]
  cases lines[k]? with
  | none => rfl
  | some line => rcases parseLine_cases line with ⟨-, i, h⟩ | ⟨-, h⟩ <;> simp [h]

/-- From a loader image `ExecOne` has a next state: its fetch is not refused (R71, R152). -/
theorem execOne_total {s : State} (h : LoaderImage s) : ∃ u, execOne s = .next u := by
  cases hf : fetch s with
  | instr i =>
    obtain ⟨t, ht⟩ := exec_total i s
    exact ⟨_, execOne_of_instr hf ht⟩
  | fault kind => exact ⟨_, execOne_of_fault hf⟩
  | refused r => exact absurd hf (fetch_not_refused h r)

theorem readyStep_total {s : State} (h : LoaderImage s) : ∃ t, readyStep s = .next t := by
  unfold readyStep
  split
  · exact ⟨_, rfl⟩
  · have hdrop : LoaderImage (dropCommand s) := LoaderImage.congr (s := s) rfl rfl h
    obtain ⟨u, hu⟩ := execOne_total hdrop
    exact ⟨settleStep u, by rw [singleStep, hu]⟩
  · exact ⟨_, rfl⟩
  · exact ⟨_, rfl⟩

theorem runningStep_total {s : State} (h : LoaderImage s) : ∃ t, runningStep s = .next t := by
  unfold runningStep
  split
  · exact ⟨_, rfl⟩
  · obtain ⟨u, hu⟩ := execOne_total h
    exact ⟨settleRun u, by rw [runIteration, hu]⟩

theorem endedStep_total (s : State) : ∃ t, endedStep s = .next t := by
  unfold endedStep
  split <;> exact ⟨_, rfl⟩

/-- From a loader image every mode but `Quit` has a next step (R150). -/
theorem step_total {s : State} (h : LoaderImage s) (hquit : s.mode ≠ .quit) : ∃ t, step s = .next t := by
  unfold step engineStep
  cases hm : s.mode with
  | idle | stepping => exact readyStep_total h
  | running => exact runningStep_total h
  | halted | faulted => exact endedStep_total s
  | quit => exact absurd hm hquit

end Sys2Proof.Machine
end

section
/-! The statements of 30_encoding.md, settled. -/

namespace Sys2Proof.Machine

/-- Settles O1: the decoder inverts the encoder on its records only, and the header's two fields decide the rest. -/
theorem recordDecodesExactlyItsInstruction : Obligations.RecordDecodesExactlyItsInstruction := by
  refine ⟨fun _ _ => decode_eq_instr_iff, fun _ => decode_eq_empty_iff.trans Record.present_eq_false_iff,
    fun r hheader => ?_⟩
  have hp : r.present = true := by
    by_contra hp
    have hlow := Record.present_eq_false_iff.mp (by simpa using hp)
    omega
  have hsplit := Record.header_of_present hp
  exact decode_unusedTag hp (by omega)

/-- Settles O11: each rendered line is one line of the text, and loads as the record of its instruction. -/
theorem renderedProgramLoadsAndDecodes : Obligations.RenderedProgramLoadsAndDecodes := by
  intro p is hlen hwf hcr
  have hlines : splitLines (renderFile (is.map renderLine)) = is.map renderLine :=
    splitLines_renderFile (List.forall_mem_map.mpr fun i hi => lineFeed_notMem_renderLine (hwf i hi))
      (List.forall_mem_map.mpr hcr)
  have hload := loadText_eq_ready (p := p) (file := renderFile (is.map renderLine)) (by simpa [hlines] using hlen)
  rw [hlines] at hload
  refine ⟨_, hload, by simp [withImage], fun k i hk => ?_⟩
  have hi : i.wf = true := hwf i (List.mem_of_getElem? hk)
  rw [progRead_withLines, List.getElem?_map, hk]
  exact (congrArg decode (parseLine_renderLine hi)).trans (decode_encode i)

/-- Settles O2: the loader's record of the line is the instruction's own. -/
theorem textLineDecodesToItsInstruction : Obligations.TextLineDecodesToItsInstruction :=
  fun i hi => by rw [parseLine_renderLine hi, decode_encode]

/-- Settles O3, by the three operand classes. -/
theorem operandsAreReadFromTheLine : Obligations.OperandsAreReadFromTheLine := by
  intro n junk hn
  refine ⟨fun i hi => ?_, fun rest hrest i hi => ?_, fun i hi => ?_⟩
  · have hi : i.operandClass = .token ∧ i.operand = some n := by
      simp only [List.mem_cons, List.not_mem_nil, or_false] at hi
      rcases hi with rfl | rfl | rfl | rfl | rfl <;> exact ⟨rfl, rfl⟩
    obtain ⟨hclass, hop⟩ := hi
    refine ⟨?_, parseLine_token hclass hop hn (separated_cons junk), ?_⟩
    · simpa using parseLine_token hclass hop hn separated_nil
    · rintro rfl
      exact parseLine_noToken hclass hop
  · have hi : i.operandClass = .rest ∧ i.operand = some rest := by
      simp only [List.mem_cons, List.not_mem_nil, or_false] at hi
      rcases hi with rfl | rfl | rfl <;> exact ⟨rfl, rfl⟩
    have hsep : Separated rest := by
      rcases hrest with rfl | rfl
      · exact separated_nil
      · exact separated_cons junk
    exact parseLine_rest hi.1 hi.2 hsep
  · have hi : i.operandClass = .none ∧ i.operand = none := by
      simp only [List.mem_cons, List.not_mem_nil, or_false] at hi
      rcases hi with rfl | rfl | rfl <;> exact ⟨rfl, rfl⟩
    obtain ⟨hclass, hop⟩ := hi
    exact ⟨by simpa using parseLine_bare hclass hop separated_nil, parseLine_bare hclass hop (separated_cons junk)⟩

/-- Settles O4: the opcode list holds the 11 mnemonics, and the search finds exactly them. -/
theorem onlyTheElevenMnemonicsAreRecognised : Obligations.OnlyTheElevenMnemonicsAreRecognised := by
  intro line
  rcases parseLine_cases line with ⟨hmem, i, hline⟩ | ⟨hmem, hline⟩
  · have hp : (parseLine line).present = true := by rw [hline, present_encode]
    exact ⟨iff_of_true hp hmem, fun habsent => by simp [hp] at habsent⟩
  · have hp : (parseLine line).present ≠ true := by rw [hline]; decide
    exact ⟨iff_of_false hp hmem, fun _ => hline⟩

/-- Settles O5, by what each terminator does to the line before it. -/
theorem linesAreSplitAtLineFeeds : Obligations.LinesAreSplitAtLineFeeds :=
  fun _ hlf => ⟨splitLines_crlf hlf, splitLines_renderFile hlf, fun last hne hlast hcr => by
    rw [splitLines_renderFile_append hlf hcr, splitLines_unterminated hne hlast]⟩

/-- Settles O6: the parser's grammar and its range test, with the value computed over the integers. -/
theorem parseIntAcceptsExactlyTheGrammar : Obligations.ParseIntAcceptsExactlyTheGrammar := by
  refine ⟨defaultLiterals_reset, fun p t v => ?_⟩
  rw [parseInt_eq_some]
  constructor
  · rintro ⟨x, hx, hmin, hmax, hv⟩
    obtain ⟨blanks, digits, neg, ht, hblanks, hne, hdigits, hval⟩ := parseSigned_eq_some.mp hx
    refine ⟨blanks, digits, neg, x, by rw [List.append_assoc]; exact ht, hblanks, hne,
      fun c hc => isDigit_iff.mp (hdigits c hc), ?_, hmin, hmax, hv⟩
    rw [hval, signedValue, ← foldl_eq_decimalValue hdigits]
    rfl
  · rintro ⟨blanks, digits, neg, x, ht, hblanks, hne, hdigits, hval, hmin, hmax, hv⟩
    have hdigits : ∀ c ∈ digits, isDigit c = true := fun c hc => isDigit_iff.mpr (hdigits c hc)
    rw [List.append_assoc] at ht
    refine ⟨x, parseSigned_eq_some.mpr ⟨blanks, digits, neg, ht, hblanks, hne, hdigits, ?_⟩, hmin, hmax, hv⟩
    rw [hval, signedValue, ← foldl_eq_decimalValue hdigits]
    rfl

/-- Settles O7: the decimal text of a value is in the grammar and writes it. -/
theorem decimalTextParsesToItsValue : Obligations.DecimalTextParsesToItsValue := by
  intro p v blanks hblanks hmin hmax
  obtain ⟨digits, neg, htext, hne, hdigits, hval⟩ := decimal_spec v
  have hsigned : parseSigned (blanks ++ decimal v.toInt) = some v.toInt := by
    rw [htext, parseSigned_of_digits neg hblanks hne hdigits, hval]
  exact parseInt_eq_some.mpr ⟨v.toInt, hsigned, hmin, hmax, rfl⟩

/-- Settles O9: a text loads as the image of its lines' records. -/
theorem loaderPlacesEveryLine : Obligations.LoaderPlacesEveryLine := by
  intro p file
  constructor
  · intro hlen
    exact ⟨_, loadText_eq_ready hlen, by simp [withImage], rfl, progRead_withLines p _⟩
  · intro hlen
    rw [loadText, loadImage, if_pos (by simpa [Config.progSlots] using hlen)]

/-- Settles O10: the loader takes exactly the records that are `EMPTY` or decode, and an unused tag is neither. -/
theorem loaderRefusesRecordsNoLoaderWrites : Obligations.LoaderRefusesRecordsNoLoaderWrites := by
  intro p image hlen
  constructor
  · simp only [loadImage_eq_ready, List.all_eq_true, loadable_iff]
    exact ⟨fun ⟨_, _, hall, _⟩ => hall, fun hall => ⟨_, hlen, hall, rfl⟩⟩
  · intro r hr hp htag
    have hrefused : loadable r = false := by rw [loadable, decode_unusedTag hp htag]
    have hall : image.all loadable = false := List.all_eq_false.mpr ⟨r, hr, by simp [hrefused]⟩
    have hfits : ¬ image.length > Config.progSlots := not_lt.mpr hlen
    rw [loadImage, if_neg hfits, if_neg (by simp [hall])]

/-- Settles O60: from a loader image a step has a next state, and no step writes program memory. -/
theorem launchedBlockNeverStops : Obligations.LaunchedBlockNeverStops := by
  intro s himage hquit
  obtain ⟨t, ht⟩ := step_total himage hquit
  obtain ⟨hprog, hlen, -⟩ := noStepWritesProgramMemory s t ht
  exact ⟨t, ht, himage.congr hprog hlen⟩

/-- Settles O8: the words of the table, one by one, and that a word's record is that of its five lowest bits. -/
theorem headerWordsDecode : Obligations.HeaderWordsDecode := by
  have hlow : ∀ w, decodeTableWord 8 w = decodeTableWord 8 (w % 32) := by
    intro w
    have hheader : BitVec.ofNat 5 (w % 2 ^ 8) = BitVec.ofNat 5 (w % 32 % 2 ^ 8) := by
      apply BitVec.eq_of_toNat_eq
      simp only [BitVec.toNat_ofNat]
      omega
    rw [decodeTableWord, recordOfWord, hheader]
    rfl
  exact ⟨rfl, rfl, rfl, rfl, rfl, rfl, rfl, rfl, rfl, rfl, rfl, by decide, by decide, rfl, rfl, hlow⟩

end Sys2Proof.Machine
end

section
/-! SUPPORT. Declaration (R100 to R105): when a slot is taken, what a sequence of instructions keeps, and the count of the
slots in use. -/

namespace Sys2Proof.Machine

/-! ### The free-slot search -/

/-- A slot is taken by a name, or under `ProgramOccupancy` by an instruction (R101, R102). -/
theorem vacant_eq_false_iff {s : State} {k : Slot} : vacant s k = false ↔
    (s.params.decPolicy = .programOccupancy ∧ (progRead s k.val).present = true) ∨ ∃ e ∈ s.sym, e.2 = k := by
  rw [← Bool.not_eq_true, vacant_iff]
  simp only [not_and_or, Classical.not_imp, Bool.not_eq_false, not_forall, not_not]

/-- The free slot is bound to no name, the declared one included (R101). -/
theorem freeSlot_unclaimed {s : State} {k : Slot} (h : freeSlot s = some k) : ∀ e ∈ s.sym, e.2 ≠ k :=
  (vacant_iff.mp (freeSlot_eq_some.mp h).1).2

/-! ### DEC -/

theorem exec_dec_of_some {s : State} {k : Slot} (n : Text) (h : freeSlot s = some k) :
    exec (.dec n) s = .next (advance (bindSym s n k)) :=
  exec_eq_next.mpr (.inr ⟨k, h, rfl⟩)

theorem exec_dec_of_none {s : State} (n : Text) (h : freeSlot s = none) :
    exec (.dec n) s = .next (raise s .slotExhausted (some n)) :=
  exec_eq_next.mpr (.inl ⟨_, _, ⟨h, rfl, rfl⟩, rfl⟩)

/-! ### Names with distinct slots -/

/-- Where slots are distinct, a slot names its symbol (R32, R105). -/
theorem name_eq_of_symGet {t : SymTab} {m n : Text} {k : Slot} (h : (t.map Prod.snd).Nodup)
    (hm : symGet t m = some k) (hn : symGet t n = some k) : m = n :=
  congrArg Prod.fst (List.inj_on_of_nodup_map h (mem_of_symGet hm) (mem_of_symGet hn) rfl)

/-- A name that moves to an unclaimed slot leaves its old slot to no name (R104). -/
theorem slot_freed_of_symSet {t : SymTab} {n : Text} {j k : Slot} (hwf : SymTab.wf t = true)
    (hunique : (t.map Prod.snd).Nodup) (hn : symGet t n = some k) (hjk : j ≠ k) : ∀ e ∈ symSet t n j, e.2 ≠ k := by
  rintro ⟨m, i⟩ he rfl
  have hm : symGet (symSet t n j) m = some i := symGet_of_mem (SymTab.wf_symSet hwf) he
  by_cases hmn : m = n
  · rw [hmn, symGet_symSet_eq] at hm
    exact hjk (Option.some.inj hm)
  · rw [symGet_symSet_ne hmn] at hm
    exact hmn (name_eq_of_symGet hunique hm hn)

theorem SlotsUnique.keptByExec : KeptByExec SlotsUnique := by
  intro i s t h hs
  unfold SlotsUnique at hs ⊢
  rcases exec_data h with ⟨-, hsym⟩ | ⟨n, k, -, hk, -, hsym⟩ | ⟨n, k, -, -, -, hsym⟩
  · rwa [hsym]
  · rw [hsym]
    exact nodup_symSet hs (freeSlot_unclaimed hk)
  · rwa [hsym]

/-- What every instruction keeps, a sequence of them keeps. -/
theorem execAll_keeps {P : State → Prop} (hexec : KeptByExec P) {is : List Instr} {s t : State}
    (h : execAll is s = .next t) (hs : P s) : P t := by
  induction is generalizing s with
  | nil => exact Host.Outcome.next.inj h ▸ hs
  | cons i rest ih =>
    obtain ⟨u, hu⟩ := exec_total i s
    simp only [execAll, hu] at h
    exact ih h (hexec hu hs)

/-! ### The slots in use -/

/-- Canonical cells have distinct indices. -/
theorem nodup_cellIndices {α : Type} [DecidableEq α] {dflt : α} {bound lo : Nat} {m : List (Nat × α)}
    (h : cellsWf dflt bound lo m = true) : (m.map Prod.fst).Nodup := by
  induction m generalizing lo with
  | nil => exact List.nodup_nil
  | cons e rest ih =>
    obtain ⟨-, -, -, hrest⟩ := cellsWf_cons.mp h
    refine List.nodup_cons.mpr ⟨fun hmem => ?_, ih hrest⟩
    obtain ⟨f, hf, hfe⟩ := List.mem_map.mp hmem
    obtain ⟨-, hlow, -⟩ := cellGet_of_mem hrest hf
    omega

/-- The slot indices that names are bound to, and those of the occupied program slots. -/
def slotsInUse (s : State) : List Nat := s.sym.map (fun e => e.2.val) ++ s.prog.map Prod.fst

theorem length_slotsInUse (s : State) : (slotsInUse s).length = s.sym.length + s.prog.length := by
  simp [slotsInUse]

/-- A program cell of a loader image is a slot below 128 that reads an instruction (R33, R68). -/
theorem LoaderImage.cell {s : State} (h : LoaderImage s) {e : Nat × Record} (he : e ∈ s.prog) :
    e.1 < 128 ∧ (progRead s e.1).present = true := by
  obtain ⟨hcells, hpresent⟩ := Bool.and_eq_true_iff.mp h.wf
  obtain ⟨hget, -, hlt, -⟩ := cellGet_of_mem hcells he
  refine ⟨hlt.trans_le h.len_le, ?_⟩
  rw [progRead, hget]
  exact List.all_eq_true.mp hpresent e he

/-- Every slot in use is one of the 128 (R30, R33). -/
theorem slotsInUse_lt {s : State} (h : LoaderImage s) : ∀ k ∈ slotsInUse s, k < 128 := by
  intro k hk
  rcases List.mem_append.mp hk with hk | hk
  · obtain ⟨e, -, rfl⟩ := List.mem_map.mp hk
    exact e.2.isLt
  · obtain ⟨e, he, rfl⟩ := List.mem_map.mp hk
    exact (h.cell he).1

/-- Under `ProgramOccupancy` no slot is used twice: names have distinct slots, program cells too, and a bound slot is
`EMPTY` in program memory (R46, R101, R105). -/
theorem DataInv.nodup_slotsInUse {s : State} (h : DataInv s) (hpolicy : s.params.decPolicy = .programOccupancy) :
    (slotsInUse s).Nodup := by
  have hbound : (s.sym.map fun e => e.2.val).Nodup := by
    have := h.unique.map Fin.val_injective
    rwa [List.map_map] at this
  have hprog : (s.prog.map Prod.fst).Nodup := nodup_cellIndices (Bool.and_eq_true_iff.mp h.image.wf).1
  refine hbound.append hprog fun k hk hk' => ?_
  obtain ⟨e, he, rfl⟩ := List.mem_map.mp hk
  obtain ⟨c, hc, hce⟩ := List.mem_map.mp hk'
  have hempty := h.vacant hpolicy e he
  rw [← hce, (h.image.cell hc).2] at hempty
  cases hempty

end Sys2Proof.Machine
end

section
/-! The statements of 41_declare.md, settled. -/

namespace Sys2Proof.Machine

/-- Settles O15: the search answers the lowest vacant slot, and the policy says what takes a slot. -/
theorem freeSlotIsTheLowestVacantSlot : Obligations.FreeSlotIsTheLowestVacantSlot := by
  intro s
  simp only [freeSlot_eq_some, freeSlot_eq_none, vacant_iff, vacant_eq_false_iff]
  refine ⟨fun hpolicy => ?_, fun hpolicy => ?_⟩
  · simp [hpolicy]
  · simp [hpolicy]

/-- Settles O16, from what DEC leaves with and without a free slot. -/
theorem decBindsTheFreeSlot : Obligations.DecBindsTheFreeSlot := by
  refine fun n s => ⟨decode_encode (.dec n), fun k hk => ?_, fun hnone => ?_⟩
  · exact ⟨_, exec_dec_of_some n hk, rfl, symGet_symSet_eq s.sym n k, fun m hm => symGet_symSet_ne hm, fun _ => rfl⟩
  · exact ⟨_, exec_dec_of_none n hnone, raise_faultEntry s _ _⟩

/-- Settles O17: the name's own slot counts as taken, so the free slot is another one. -/
theorem redeclarationMovesTheName : Obligations.RedeclarationMovesTheName := by
  intro s t n k hdata _ hn ht hmode
  obtain ⟨kind, info, -, rfl⟩ | ⟨j, hj, rfl⟩ := exec_cases ht
  · exact absurd (raise_mode s kind info) hmode
  · have hjk : j ≠ k := (freeSlot_unclaimed hj (n, k) (mem_of_symGet hn)).symm
    exact ⟨⟨j, symGet_symSet_eq s.sym n j, hjk⟩, slot_freed_of_symSet hdata.sym hdata.unique hn hjk, fun _ => rfl⟩

/-- Settles O18: the name's own slot counts as taken, so no slot is vacant. -/
theorem redeclarationNeedsASecondSlot : Obligations.RedeclarationNeedsASecondSlot := by
  intro s n k hpolicy hn hothers
  have hnone : freeSlot s = none := freeSlot_eq_none.mpr fun j => vacant_eq_false_iff.mpr <| by
    by_cases hjk : j = k
    · exact .inr ⟨(n, k), mem_of_symGet hn, hjk.symm⟩
    · exact (hothers j hjk).imp_left fun hp => ⟨hpolicy, hp⟩
  exact ⟨_, exec_dec_of_none n hnone, raise_faultEntry s _ _⟩

/-- Settles O19: distinct indices below 128 are at most 128. -/
theorem boundNamesAreLimited : Obligations.BoundNamesAreLimited := by
  refine fun s h => ⟨?_, fun hpolicy => ?_⟩
  · simpa using h.unique.length_le_card
  · have hsub : slotsInUse s ⊆ List.range 128 := fun k hk => List.mem_range.mpr (slotsInUse_lt h.image k hk)
    have hle := (List.subperm_of_subset (h.nodup_slotsInUse hpolicy) hsub).length_le
    rwa [length_slotsInUse, List.length_range] at hle

/-- Settles O20: every instruction keeps the slots distinct. -/
theorem declarationsKeepSlotsUnique : Obligations.DeclarationsKeepSlotsUnique := by
  intro names s t hs ht
  have hunique : SlotsUnique t := execAll_keeps SlotsUnique.keptByExec ht hs
  exact ⟨hunique, fun _ _ _ hm hn => name_eq_of_symGet hunique hm hn⟩

end Sys2Proof.Machine
end

section
/-! SUPPORT. Loads and stores (R110 to R116): an instruction that completes or faults as its operand resolves, and the
slot of a bound name between a store and a load. -/

namespace Sys2Proof.Machine

/-! ### Completion and fault of one instruction -/

theorem exec_of_completes {i : Instr} {s t : State} (h : Completes i s t) : exec i s = .next t :=
  exec_eq_next.mpr (.inr h)

theorem exec_faultEntry {i : Instr} {s : State} {kind : FaultKind} {info : Option Text} (h : Raises i s kind info) :
    ∃ t, exec i s = .next t ∧ FaultEntry s t kind info :=
  ⟨_, exec_eq_next.mpr (.inl ⟨kind, info, h, rfl⟩), raise_faultEntry s kind info⟩

/-! ### Sequences of instructions -/

theorem execAll_cons {i : Instr} {rest : List Instr} {s t : State} :
    execAll (i :: rest) s = .next t ↔ ∃ u, exec i s = .next u ∧ execAll rest u = .next t := by
  obtain ⟨u, hu⟩ := exec_total i s
  simp [execAll, hu]

/-- What each instruction of a sequence keeps, the sequence keeps. -/
theorem execAll_keeps_of_mem {P : State → Prop} {is : List Instr} {s t : State}
    (hexec : ∀ i ∈ is, ∀ ⦃u v : State⦄, exec i u = .next v → P u → P v) (h : execAll is s = .next t) (hs : P s) :
    P t := by
  induction is generalizing s with
  | nil => exact Host.Outcome.next.inj h ▸ hs
  | cons i rest ih =>
    obtain ⟨u, hu, hrest⟩ := execAll_cons.mp h
    exact ih (fun j hj => hexec j (List.mem_cons_of_mem i hj)) hrest (hexec i List.mem_cons_self hu hs)

/-! ### The slot of a bound name -/

theorem resolve_of_symGet {s : State} {n : Text} {k : Slot} (h : symGet s.sym n = some k) : resolve s n = some k :=
  resolve_eq_some.mpr (.inl h)

/-- `n` is bound to slot `k`, which holds `v`, and no other name resolves there: slots are distinct (R32), and an
undeclared name has no slot or is given another one (R110). -/
structure HoldsBound (n : Text) (k : Slot) (v : Word) (s : State) : Prop where
  unique : SlotsUnique s
  own    : s.params.undeclared = .fault ∨ k ≠ 0
  bound  : symGet s.sym n = some k
  value  : memRead s k = v

/-- Another name does not resolve to the slot (R32, R110). -/
theorem HoldsBound.resolve_ne {n m : Text} {j k : Slot} {v : Word} {s : State} (h : HoldsBound n k v s)
    (hm : resolve s m = some j) (hmn : m ≠ n) : j ≠ k := by
  rintro rfl
  rcases resolve_eq_some.mp hm with hbound | ⟨-, hlegacy, hzero⟩
  · exact hmn (name_eq_of_symGet h.unique hbound h.bound)
  · rcases h.own with hfault | hne
    · rw [hfault] at hlegacy; cases hlegacy
    · exact hne hzero

/-- Only DEC and STR of the name itself end that it holds its value (R104, R114, R115). -/
theorem HoldsBound.after_exec {n : Text} {k : Slot} {v : Word} {i : Instr} {s t : State} (hdec : i ≠ .dec n)
    (hstr : i ≠ .str n) (hexec : exec i s = .next t) (h : HoldsBound n k v s) : HoldsBound n k v t := by
  have hunique : SlotsUnique t := SlotsUnique.keptByExec hexec h.unique
  have hown : t.params.undeclared = .fault ∨ k ≠ 0 := (exec_background hexec).params ▸ h.own
  rcases exec_data hexec with ⟨hstore, hsym⟩ | ⟨m, j, rfl, -, hstore, hsym⟩ | ⟨m, j, rfl, hj, hstore, hsym⟩
  · exact ⟨hunique, hown, hsym ▸ h.bound, (memRead_congr hstore k).trans h.value⟩
  · have hnm : n ≠ m := by rintro rfl; exact hdec rfl
    have hbound : symGet t.sym n = some k := by rw [hsym, symGet_symSet_ne hnm, h.bound]
    exact ⟨hunique, hown, hbound, (memRead_congr hstore k).trans h.value⟩
  · have hkj : k ≠ j := (h.resolve_ne hj fun hmn => hstr (hmn ▸ rfl)).symm
    have hvalue : memRead t k = v := by rw [memRead_congr hstore, memRead_memWrite_ne hkj, h.value]
    exact ⟨hunique, hown, hsym ▸ h.bound, hvalue⟩

/-- STR of a bound name makes its slot hold `A` (R114). -/
theorem HoldsBound.of_exec_str {n : Text} {k : Slot} {s t : State} (hdata : DataInv s)
    (hown : s.params.undeclared = .fault ∨ k ≠ 0) (hn : symGet s.sym n = some k) (h : exec (.str n) s = .next t) :
    HoldsBound n k s.regA t := by
  have hstr : exec (.str n) s = .next (advance (memWrite s k s.regA)) :=
    exec_of_completes ⟨k, resolve_of_symGet hn, rfl⟩
  obtain rfl := Host.Outcome.next.inj (hstr.symm.trans h)
  exact ⟨hdata.unique, hown, hn, memRead_memWrite_eq hdata.store k s.regA⟩

end Sys2Proof.Machine
end

section
/-! The statements of 42_load_store.md, settled. -/

namespace Sys2Proof.Machine

/-- Settles O21, from the ways `Resolve` answers and what LDA, LDB and STR do with its answer. -/
theorem resolveFollowsTheSymbolTable : Obligations.ResolveFollowsTheSymbolTable := by
  refine fun s n => ⟨fun k hk => resolve_of_symGet hk, fun hn hfault => ?_, fun hn hlegacy => ?_⟩
  · have hnone : resolve s n = none := resolve_eq_none.mpr ⟨hn, hfault⟩
    refine ⟨hnone, fun i hi => exec_faultEntry ?_⟩
    simp only [List.mem_cons, List.not_mem_nil, or_false] at hi
    rcases hi with rfl | rfl | rfl <;> exact ⟨hnone, rfl, rfl⟩
  · have hzero : resolve s n = some 0 := resolve_eq_some.mpr (.inr ⟨hn, hlegacy, rfl⟩)
    refine ⟨hzero, fun i hi => ?_⟩
    simp only [List.mem_cons, List.not_mem_nil, or_false] at hi
    rcases hi with rfl | rfl | rfl <;> exact ⟨_, exec_of_completes ⟨0, hzero, rfl⟩, rfl, rfl⟩

/-- Settles O25: a slot write is read back, and every other slot reads as before. -/
theorem strWritesAToTheSlot : Obligations.StrWritesAToTheSlot := by
  refine fun n s => ⟨decode_encode (.str n), fun k hk => ?_, fun hnone => exec_faultEntry ⟨hnone, rfl, rfl⟩⟩
  refine ⟨_, exec_of_completes ⟨k, hk, rfl⟩, rfl, fun hwf => ?_, fun j hj => memRead_memWrite_ne hj s.regA⟩
  exact ⟨memRead_memWrite_eq hwf k s.regA, Memory.wf_memWrite hwf k s.regA⟩

/-- Settles O26: STR makes the name's slot hold `A`, and the instructions between keep it so. -/
theorem storeThenLoadReturnsTheValue : Obligations.StoreThenLoadReturnsTheValue := by
  intro s t n k is hdata hn hown his hrun
  obtain ⟨u, hstr, hrest⟩ := execAll_cons.mp hrun
  have hstored : HoldsBound n k s.regA u := .of_exec_str hdata hown hn hstr
  have hheld : HoldsBound n k s.regA t :=
    execAll_keeps_of_mem (fun i hi _ _ hexec => HoldsBound.after_exec (his i hi).1 (his i hi).2 hexec) hrest hstored
  rw [← hheld.value]
  exact exec_of_completes ⟨k, resolve_of_symGet hheld.bound, rfl⟩

/-- Settles O22, from what LDA does as its name resolves. -/
theorem ldaCopiesTheSlotIntoA : Obligations.LdaCopiesTheSlotIntoA := fun n _ =>
  ⟨decode_encode (.lda n), fun k hk => exec_of_completes ⟨k, hk, rfl⟩,
    fun hnone => exec_faultEntry ⟨hnone, rfl, rfl⟩⟩

/-- Settles O23, from what LDB does as its name resolves. -/
theorem ldbCopiesTheSlotIntoB : Obligations.LdbCopiesTheSlotIntoB := fun n _ =>
  ⟨decode_encode (.ldb n), fun k hk => exec_of_completes ⟨k, hk, rfl⟩,
    fun hnone => exec_faultEntry ⟨hnone, rfl, rfl⟩⟩

/-- Settles O24, from what LDI does as its literal parses. -/
theorem ldiLoadsTheLiteral : Obligations.LdiLoadsTheLiteral := fun lit _ =>
  ⟨decode_encode (.ldi lit), fun v hv => exec_of_completes ⟨v, hv, rfl⟩,
    fun hnone => exec_faultEntry ⟨hnone, rfl, rfl⟩⟩

/-- Settles O27: the second XCH swaps back, and `pc` has advanced twice. -/
theorem xchSwapsAndIsAnInvolution : Obligations.XchSwapsAndIsAnInvolution := by
  refine ⟨decode_encode .xch, fun s => ⟨exec_of_completes rfl, ?_⟩⟩
  have hpc : s.pc + 1 + 1 = s.pc + 2 := BitVec.add_assoc s.pc 1 1
  exact execAll_cons.mpr ⟨_, rfl, execAll_cons.mpr ⟨_, rfl, hpc ▸ rfl⟩⟩

end Sys2Proof.Machine
end

section
/-! The statements of 43_control_transfer.md, settled. -/

namespace Sys2Proof.Machine

/-- An instruction whose completion a flag decides goes on at the target where the flag is 1 and at the next instruction
where it is 0 (R133, R134). -/
theorem exec_conditionalJump {i : Instr} {s : State} {target : Word} {flag : Bool}
    (h : Completes i s (if flag then setPc s target else advance s)) :
    (flag = true → exec i s = .next (setPc s target)) ∧ (flag = false → exec i s = .next (advance s)) := by
  constructor
  · rintro rfl
    exact exec_of_completes h
  · rintro rfl
    exact exec_of_completes h

/-- Settles O28: JMP completes with whatever value its target parses to, and faults where it parses to none. -/
theorem jmpWritesTheTarget : Obligations.JmpWritesTheTarget := fun tgt _ =>
  ⟨decode_encode (.jmp tgt), fun v hv => exec_of_completes ⟨v, hv, rfl⟩,
    fun hnone => exec_faultEntry ⟨hnone, rfl, rfl⟩⟩

/-- Settles O29: the target is parsed before `ZF` is tested, so a malformed one faults, taken or not (R130). -/
theorem jzsJumpsOnZero : Obligations.JzsJumpsOnZero := fun tgt _ =>
  ⟨decode_encode (.jzs tgt), fun v hv => exec_conditionalJump ⟨v, hv, rfl⟩,
    fun hnone => exec_faultEntry ⟨hnone, rfl, rfl⟩⟩

/-- Settles O30: the target is parsed before `OF` is tested, so a malformed one faults, taken or not (R130). -/
theorem jvsJumpsOnOverflow : Obligations.JvsJumpsOnOverflow := fun tgt _ =>
  ⟨decode_encode (.jvs tgt), fun v hv => exec_conditionalJump ⟨v, hv, rfl⟩,
    fun hnone => exec_faultEntry ⟨hnone, rfl, rfl⟩⟩

end Sys2Proof.Machine
end

section
/-! The statements of 44_arithmetic.md, settled. -/

namespace Sys2Proof.Machine

/-! ### ADD by the class of its exact sum -/

/-- A sum at or outside either threshold is not written, and sets `OF` only (R141, branches 1 and 2). -/
theorem exec_add_of_overflow {s : State}
    (h : exactSum s.regA s.regB ≤ Config.addLo ∨ Config.addHi ≤ exactSum s.regA s.regB) :
    exec .add s = .next { s with ovf := true, pc := s.pc + 1 } := by
  have hunit : addUnit s.regA s.regB s.zf s.ovf = ⟨s.regA, s.zf, true⟩ := by
    by_cases hlo : exactSum s.regA s.regB ≤ Config.addLo
    · exact if_pos hlo
    · exact (if_neg hlo).trans (if_pos (h.resolve_left hlo))
  exact exec_of_completes ⟨_, hunit.symm, rfl⟩

/-- A sum of zero is written, and sets `ZF` only (R141, branch 3). -/
theorem exec_add_of_zero {s : State} (h : exactSum s.regA s.regB = 0) :
    exec .add s = .next { s with regA := 0, zf := true, pc := s.pc + 1 } := by
  have hlo : ¬exactSum s.regA s.regB ≤ Config.addLo := by rw [h]; decide
  have hhi : ¬Config.addHi ≤ exactSum s.regA s.regB := by rw [h]; decide
  have hunit : addUnit s.regA s.regB s.zf s.ovf = ⟨0, true, s.ovf⟩ :=
    (if_neg hlo).trans ((if_neg hhi).trans (if_pos h))
  exact exec_of_completes ⟨_, hunit.symm, rfl⟩

/-- Every other sum is written, and clears both flags (R141, branch 4). -/
theorem exec_add_of_inRange {s : State} (hlo : Config.addLo < exactSum s.regA s.regB)
    (hhi : exactSum s.regA s.regB < Config.addHi) (hne : exactSum s.regA s.regB ≠ 0) :
    exec .add s = .next { s with
      regA := BitVec.ofInt 64 (exactSum s.regA s.regB), zf := false, ovf := false, pc := s.pc + 1 } := by
  have hunit : addUnit s.regA s.regB s.zf s.ovf = ⟨BitVec.ofInt 64 (exactSum s.regA s.regB), false, false⟩ :=
    (if_neg hlo.not_ge).trans ((if_neg hhi.not_ge).trans (if_neg hne))
  exact exec_of_completes ⟨_, hunit.symm, rfl⟩

/-- Settles O31: the exact sum overflows, is zero, or is in range and so held by the register (R143). -/
theorem addTakesFourBranches : Obligations.AddTakesFourBranches := by
  refine ⟨decode_encode .add, ?_⟩
  rintro s _ rfl
  exact ⟨fun hlo => exec_add_of_overflow (.inl hlo), fun hhi => exec_add_of_overflow (.inr hhi), exec_add_of_zero,
    fun hlo hhi hne => ⟨_, exec_add_of_inRange hlo hhi hne, rfl, toInt_ofInt_sum hlo hhi⟩⟩

/-- Settles O32: each boundary sum falls under one branch, and no branch sets both flags. -/
theorem addAtTheBoundaries : Obligations.AddAtTheBoundaries := by
  intro s t h
  obtain ⟨hlow, hhigh, hzero, hinRange⟩ := addTakesFourBranches.2 s _ rfl
  generalize s.regA.toInt + s.regB.toInt = r at hlow hhigh hzero hinRange ⊢
  have overflow (hr : r ≤ -2147483648 ∨ 2147483647 ≤ r) : t.regA = s.regA ∧ t.zf = s.zf ∧ t.ovf = true := by
    obtain rfl := Host.Outcome.next.inj (h.symm.trans (hr.elim hlow hhigh))
    exact ⟨rfl, rfl, rfl⟩
  have zero (hr : r = 0) : t.regA = 0 ∧ t.zf = true ∧ t.ovf = s.ovf := by
    obtain rfl := Host.Outcome.next.inj (h.symm.trans (hzero hr))
    exact ⟨rfl, rfl, rfl⟩
  have inRange {x : Int} (hr : r = x) (hx : -2147483648 < x ∧ x < 2147483647 ∧ x ≠ 0) :
      t.regA.toInt = x ∧ t.zf = false ∧ t.ovf = false := by
    subst hr
    obtain ⟨hlo, hhi, hne⟩ := hx
    obtain ⟨u, hu, hstate, hval⟩ := hinRange hlo hhi hne
    obtain rfl := Host.Outcome.next.inj (h.symm.trans hu)
    exact ⟨hval, congrArg State.zf hstate, congrArg State.ovf hstate⟩
  have exclusive (hz : s.zf = false) (ho : s.ovf = false) : ¬(t.zf = true ∧ t.ovf = true) := by
    by_cases hover : r ≤ -2147483648 ∨ 2147483647 ≤ r
    · obtain ⟨-, hkept, -⟩ := overflow hover
      simp [hkept, hz]
    · by_cases hr : r = 0
      · obtain ⟨-, -, hkept⟩ := zero hr
        simp [hkept, ho]
      · obtain ⟨-, hcleared, -⟩ := inRange rfl (by omega)
        simp [hcleared]
  exact ⟨fun hr => inRange hr (by decide), fun hr => overflow (.inr hr.ge), fun hr => inRange hr (by decide),
    fun hr => overflow (.inl hr.le), zero, fun hr => inRange hr (by decide), fun hr => inRange hr (by decide),
    exclusive⟩

end Sys2Proof.Machine
end

section
/-! SUPPORT. One step of the block by its mode and the command or answer it finds (R150, R154 to R159): what follows
need not look into `step`. -/

namespace Sys2Proof.Machine

/-! ### The mode chooses the kind of step -/

theorem step_of_ready {s : State} (hm : s.mode = .idle ∨ s.mode = .stepping) : step s = readyStep s := by
  rcases hm with hm | hm <;> simp only [step, engineStep, hm]

theorem step_of_running {s : State} (hm : s.mode = .running) : step s = runningStep s := by
  simp only [step, engineStep, hm]

theorem step_of_ended {s : State} (hm : s.mode = .halted ∨ s.mode = .faulted) : step s = endedStep s := by
  rcases hm with hm | hm <;> simp only [step, engineStep, hm]

/-- No step leaves `Quit` (R150; log 3). -/
theorem mode_ne_quit_of_step {s t : State} (h : step s = .next t) : s.mode ≠ .quit := by
  intro hm
  simp [step, engineStep, hm] at h

/-! ### The oldest command -/

theorem dropCommand_of_nil {s : State} (h : s.commands = []) : dropCommand s = s := by
  rw [dropCommand, h, List.tail_nil, ← h]

theorem dropCommand_of_cons {s : State} {c : Command} {rest : List Command} (h : s.commands = c :: rest) :
    dropCommand s = { s with commands := rest } := by
  rw [dropCommand, h, List.tail_cons]

theorem readyStep_of_nil {s : State} (h : s.commands = []) : readyStep s = .next s := by
  simp only [readyStep, h]

theorem readyStep_of_step {s : State} (h : s.commands.head? = some .step) :
    readyStep s = singleStep (dropCommand s) := by
  obtain ⟨rest, hrest⟩ := List.head?_eq_some_iff.mp h
  simp only [readyStep, hrest]

theorem readyStep_of_run {s : State} (h : s.commands.head? = some .run) :
    readyStep s = .next (startRun (dropCommand s)) := by
  obtain ⟨rest, hrest⟩ := List.head?_eq_some_iff.mp h
  simp only [readyStep, hrest]

theorem readyStep_of_quit {s : State} (h : s.commands.head? = some .quit) :
    readyStep s = .next (quit (dropCommand s)) := by
  obtain ⟨rest, hrest⟩ := List.head?_eq_some_iff.mp h
  simp only [readyStep, hrest]

/-- In `Halted` and `Faulted` a command is taken, and only `q` does anything (R157, R158; log 19). -/
theorem endedStep_eq (s : State) : endedStep s =
    .next (if s.commands.head? = some .quit then quit (dropCommand s) else dropCommand s) := by
  unfold endedStep
  split
  · rename_i hc
    simp [hc, dropCommand_of_nil hc]
  all_goals
    rename_i hc
    simp [hc]

/-- Every mode but `Running` and `Quit` takes `q` alike (R159). -/
theorem step_of_quitCommand {s : State} (hrun : s.mode ≠ .running) (hquit : s.mode ≠ .quit)
    (hc : s.commands.head? = some .quit) : step s = .next (quit (dropCommand s)) := by
  cases hm : s.mode with
  | idle => rw [step_of_ready (.inl hm), readyStep_of_quit hc]
  | stepping => rw [step_of_ready (.inr hm), readyStep_of_quit hc]
  | running => exact absurd hm hrun
  | halted => rw [step_of_ended (.inl hm), endedStep_eq, if_pos hc]
  | faulted => rw [step_of_ended (.inr hm), endedStep_eq, if_pos hc]
  | quit => exact absurd hm hquit

/-! ### Single steps and passes of a run -/

theorem singleStep_eq_next {s t : State} : singleStep s = .next t ↔ ∃ u, execOne s = .next u ∧ settleStep u = t := by
  unfold singleStep
  cases execOne s <;> simp

theorem runIteration_eq_next {s t : State} :
    runIteration s = .next t ↔ ∃ u, execOne s = .next u ∧ settleRun u = t := by
  unfold runIteration
  cases execOne s <;> simp

/-- The command `s` runs one `ExecOne` (R154). -/
theorem step_of_commanded {s t : State} (hm : s.mode = .idle ∨ s.mode = .stepping)
    (hc : s.commands.head? = some .step) :
    step s = .next t ↔ ∃ u, execOne (dropCommand s) = .next u ∧ settleStep u = t := by
  rw [step_of_ready hm, readyStep_of_step hc, singleStep_eq_next]

/-- A run that is not paused goes on by one `ExecOne` (R155). -/
theorem step_of_unpaused {s t : State} (hm : s.mode = .running) (hc : s.checkpoint = false) :
    step s = .next t ↔ ∃ u, execOne s = .next u ∧ settleRun u = t := by
  rw [step_of_running hm, runningStep, if_neg (by simp [hc]), runIteration_eq_next]

/-- A paused run turns to the host's answer (R156). -/
theorem step_of_paused {s : State} (hm : s.mode = .running) (hc : s.checkpoint = true) :
    step s = .next (takeAnswer s) := by
  rw [step_of_running hm, runningStep, if_pos hc]

/-- The single step ends in `Stepping`, unless its instruction halted or faulted (R154). -/
theorem settleStep_cases (u : State) :
    ((u.mode = .halted ∨ u.mode = .faulted) ∧ settleStep u = u) ∨
      (u.mode ≠ .halted ∧ u.mode ≠ .faulted ∧ settleStep u = setMode u .stepping) := by
  unfold settleStep
  split
  · exact .inl ⟨‹_›, rfl⟩
  · rename_i hm
    obtain ⟨hhalt, hfault⟩ := not_or.mp hm
    exact .inr ⟨hhalt, hfault, rfl⟩

/-! What the end of a step leaves of the `ExecOne` before it. -/

@[simp] theorem settleRun_mode (u : State) : (settleRun u).mode = u.mode := by
  unfold settleRun
  split <;> rfl

@[simp] theorem settleRun_trace (u : State) : (settleRun u).trace = u.trace := by
  unfold settleRun
  split <;> rfl

@[simp] theorem settleRun_commands (u : State) : (settleRun u).commands = u.commands := by
  unfold settleRun
  split <;> rfl

@[simp] theorem settleRun_exitCode (u : State) : (settleRun u).exitCode = u.exitCode := by
  unfold settleRun
  split <;> rfl

@[simp] theorem settleStep_trace (u : State) : (settleStep u).trace = u.trace := by
  unfold settleStep
  split <;> rfl

/-- The mode after a single step (R150, R154). -/
theorem settleStep_mode_mem (u : State) : (settleStep u).mode ∈ [Mode.stepping, .halted, .faulted] := by
  rcases settleStep_cases u with ⟨hm | hm, h⟩ | ⟨-, -, h⟩ <;> simp [*]

theorem settleStep_mode_eq_faulted {u : State} : (settleStep u).mode = .faulted ↔ u.mode = .faulted := by
  rcases settleStep_cases u with ⟨-, h⟩ | ⟨-, hm, h⟩ <;> simp [*]

/-! ### The checkpoint's answer -/

@[simp] theorem takeAnswer_commands (s : State) : (takeAnswer s).commands = s.commands := by
  unfold takeAnswer
  split <;> rfl

@[simp] theorem takeAnswer_runCount (s : State) : (takeAnswer s).runCount = s.runCount := by
  unfold takeAnswer
  split <;> rfl

@[simp] theorem takeAnswer_trace (s : State) : (takeAnswer s).trace = s.trace := by
  unfold takeAnswer
  split <;> rfl

@[simp] theorem takeAnswer_exitCode (s : State) : (takeAnswer s).exitCode = s.exitCode := by
  unfold takeAnswer
  split <;> rfl

/-- Only a negative answer ends the run (R156). -/
theorem takeAnswer_mode (s : State) : (takeAnswer s).mode = s.mode ∨
    (takeAnswer s).mode = .idle ∧ s.answers.head? = some .negative := by
  unfold takeAnswer
  split
  · exact .inl rfl
  · rename_i ha
    exact .inr ⟨rfl, by rw [ha, List.head?_cons]⟩
  · exact .inl rfl

end Sys2Proof.Machine
end

section
/-! SUPPORT. One `ExecOne` (R151, R152): what its fetch finds, what it leaves of the engine, what it traces, and that it
does the same whatever the engine's fields are. -/

namespace Sys2Proof.Machine

/-! ### The fetch -/

theorem pcInRange_iff {s : State} : pcInRange s = true ↔ 0 ≤ s.pc.toInt ∧ s.pc.toInt < s.progLen := by
  simp [pcInRange]

/-- The fetch looks at `pc` and the program only (R151). -/
theorem fetch_congr {s s' : State} (h : OnlyEngineDiffers s s') : fetch s' = fetch s := by
  unfold fetch pcInRange progRead
  rw [h.arch.pc, h.prog, h.progLen]

theorem executes_iff {s : State} {i : Instr} : Executes s i ↔ Fetches s ∧ fetch s = .instr i := by
  rw [fetch_eq_instr, pcInRange_iff, and_assoc]
  rfl

theorem fetch_outside {s : State} (h : s.pc.toInt < 0 ∨ s.progLen ≤ s.pc.toInt) : fetch s = .fault .outOfBounds := by
  have hout : ¬pcInRange s = true := by
    rw [pcInRange_iff]
    omega
  rw [fetch, if_neg hout]

theorem fetch_emptySlot {s : State} (hlo : 0 ≤ s.pc.toInt) (hhi : s.pc.toInt < s.progLen)
    (h : (progRead s s.pc.toNat).present = false) : fetch s = .fault .emptySlot := by
  rw [fetch, if_pos (pcInRange_iff.mpr ⟨hlo, hhi⟩), fetchRecord, decode_eq_empty_iff.mpr h]

/-- A fetch that faults makes its step the fault entry, in a single step and in a run alike (R151, R202, R203). -/
theorem step_of_fetchFault {s : State} {kind : FaultKind} (hs : Fetches s) (hk : fetch s = .fault kind) :
    ∃ t, step s = .next t ∧ SameArch s t ∧ t.mode = .faulted ∧ t.fault = some ⟨kind, s.pc, none⟩ ∧
      t.trace = s.trace ∧ t.runCount = s.runCount := by
  rcases hs with ⟨hm, hc⟩ | ⟨hm, hc⟩
  · have hone : execOne (dropCommand s) = .next (raise (dropCommand s) kind none) :=
      execOne_of_fault ((fetch_congr (dropCommand_onlyEngine s)).trans hk)
    exact ⟨raise (dropCommand s) kind none, (step_of_commanded hm hc).mpr ⟨_, hone, if_pos (.inr rfl)⟩,
      ⟨rfl, rfl, rfl, rfl, rfl, rfl, rfl⟩, rfl, rfl, rfl, rfl⟩
  · exact ⟨raise s kind none, (step_of_unpaused hm hc).mpr ⟨_, execOne_of_fault hk, if_neg (by simp)⟩,
      raise_arch s kind none, rfl, rfl, rfl, rfl⟩

/-! ### What it leaves of the engine -/

/-- An instruction keeps the mode, or halts, or faults (R153, R203). -/
theorem exec_mode {i : Instr} {s t : State} (h : exec i s = .next t) :
    t.mode = s.mode ∨ t.mode = .halted ∨ t.mode = .faulted :=
  (exec_withEngine h).imp And.left And.left

theorem execOne_mode {s u : State} (h : execOne s = .next u) :
    u.mode = s.mode ∨ u.mode = .halted ∨ u.mode = .faulted := by
  obtain ⟨kind, -, rfl⟩ | ⟨i, t, -, ht, rfl⟩ := execOne_cases h
  · exact .inr (.inr rfl)
  · rw [afterExec_mode]
    exact exec_mode ht

/-- The background is left as it was, but for the trace. -/
theorem execOne_background {s u : State} (h : execOne s = .next u) : SameBackground { s with trace := u.trace } u := by
  obtain ⟨kind, -, rfl⟩ | ⟨i, t, -, ht, rfl⟩ := execOne_cases h
  · exact raise_background s kind none
  · have hb := exec_background ht
    unfold afterExec
    split <;> exact { hb with trace := rfl }

/-- One pass of a run that is not paused: its instruction is counted, with the checkpoint test after it, or it has ended
the run (R155, R156). -/
theorem unpaused_cases {s t : State} (hm : s.mode = .running) (hc : s.checkpoint = false) (h : step s = .next t) :
    (t.mode = .running ∧ t.runCount = s.runCount + 1 ∧ t.pauseEnabled = s.pauseEnabled ∧
      t.checkpoint = (s.pauseEnabled && (s.runCount + 1) % 1000 == 0)) ∨
    t.mode = .halted ∨ t.mode = .faulted := by
  obtain ⟨u, hu, rfl⟩ := (step_of_unpaused hm hc).mp h
  have hb := execOne_background hu
  have hcount : u.runCount = s.runCount := hb.runCount
  have hpause : u.pauseEnabled = s.pauseEnabled := hb.pauseEnabled
  rcases execOne_mode hu with hmu | hend
  · rw [hm] at hmu
    have hsettle : settleRun u = countInstr u := if_pos hmu
    exact .inl (by simp [hsettle, hmu, hcount, hpause, Config.checkpointInterval])
  · exact .inr (by simpa using hend)

/-! ### What follows an instruction -/

/-- After an instruction of a single step (R152, R154). -/
theorem settleStep_afterExec (i : Instr) (t : State) : settleStep (afterExec i t) =
    if t.mode = .faulted then t
    else if t.mode = .halted then { t with trace := traceRecord i t :: t.trace }
    else { t with trace := traceRecord i t :: t.trace, mode := .stepping } := by
  by_cases hfault : t.mode = .faulted
  · simp [afterExec, settleStep, hfault]
  · by_cases hhalt : t.mode = .halted
    · simp [afterExec, settleStep, hhalt, emitTrace]
    · simp [afterExec, settleStep, hfault, hhalt, emitTrace, setMode]

/-- After an instruction of a run (R152, R155, R156). -/
theorem settleRun_afterExec (i : Instr) {t : State} (hm : t.mode = .running ∨ t.mode = .halted ∨ t.mode = .faulted) :
    settleRun (afterExec i t) =
      if t.mode = .faulted then t
      else if t.mode = .halted then { t with trace := traceRecord i t :: t.trace }
      else { t with
        trace := traceRecord i t :: t.trace, runCount := t.runCount + 1,
        checkpoint := t.pauseEnabled && decide ((t.runCount + 1) % 1000 = 0) } := by
  rcases hm with hm | hm | hm
  · simp [afterExec, settleRun, hm, emitTrace, countInstr, Config.checkpointInterval, beq_eq_decide]
  · simp [afterExec, settleRun, hm, emitTrace]
  · simp [afterExec, settleRun, hm]

/-! ### What it traces -/

/-- The record holds what the architectural state holds (R165). -/
theorem traceRecord_congr {s t : State} (i : Instr) (h : SameArch s t) : traceRecord i t = traceRecord i s := by
  simp only [traceRecord, h.regA, h.regB, h.ovf, h.zf, h.sym, memRead_congr h.store]

/-- An instruction that completes adds its record; a fault, of the fetch or of the instruction, adds none (R152, R165,
R203). -/
theorem execOne_trace {s u : State} (h : execOne s = .next u) :
    (∀ i, fetch s = .instr i → u.mode ≠ .faulted → u.trace = traceRecord i u :: s.trace) ∧
      (u.mode = .faulted ∨ (∀ i, fetch s ≠ .instr i) → u.trace = s.trace) := by
  obtain ⟨kind, hf, rfl⟩ | ⟨i, t, hf, ht, rfl⟩ := execOne_cases h
  · exact ⟨fun i hi => by simp [hf] at hi, fun _ => rfl⟩
  · have htrace : t.trace = s.trace := (exec_background ht).trace
    rw [afterExec_mode]
    refine ⟨fun j hj hmode => ?_, fun hnone => ?_⟩
    · obtain rfl : i = j := by simpa [hf] using hj
      rw [afterExec, if_neg hmode, emitTrace_trace, htrace]
      rfl
    · have hmode : t.mode = .faulted := hnone.resolve_right fun hno => hno i hf
      rw [afterExec, if_pos hmode, htrace]

/-- A step that fetches is one `ExecOne`, of the state without the command that asked for it; the engine fields written
before and after it hide nothing of what it did (R154, R155). -/
theorem step_of_fetches {s t : State} (hs : Fetches s) (h : step s = .next t) :
    ∃ s' u, execOne s' = .next u ∧ OnlyEngineDiffers s s' ∧ s'.trace = s.trace ∧
      OnlyEngineDiffers u t ∧ t.trace = u.trace ∧ (t.mode = .faulted ↔ u.mode = .faulted) := by
  rcases hs with ⟨hm, hc⟩ | ⟨hm, hc⟩
  · obtain ⟨u, hu, rfl⟩ := (step_of_commanded hm hc).mp h
    exact ⟨dropCommand s, u, hu, dropCommand_onlyEngine s, rfl, settleStep_onlyEngine u, settleStep_trace u,
      settleStep_mode_eq_faulted⟩
  · obtain ⟨u, hu, rfl⟩ := (step_of_unpaused hm hc).mp h
    exact ⟨s, u, hu, ⟨⟨rfl, rfl, rfl, rfl, rfl, rfl, rfl⟩, rfl, rfl, rfl⟩, rfl, settleRun_onlyEngine u,
      settleRun_trace u, by rw [settleRun_mode]⟩

/-- A step that fetches nothing traces nothing (R165). -/
theorem trace_of_not_fetches {s t : State} (hs : ¬Fetches s) (h : step s = .next t) : t.trace = s.trace := by
  rcases step_cases h with ⟨hm, hready⟩ | ⟨hm, hrunning⟩ | ⟨-, hended⟩
  · rcases hready with ⟨-, rfl⟩ | ⟨hc, -⟩ | ⟨-, rfl⟩ | ⟨-, rfl⟩
    · rfl
    · exact absurd (.inl ⟨hm, hc⟩) hs
    · rfl
    · rfl
  · rcases hrunning with ⟨-, rfl⟩ | ⟨hc, -⟩
    · exact takeAnswer_trace s
    · exact absurd (.inr ⟨hm, hc⟩) hs
  · rcases hended with ⟨-, rfl⟩ | ⟨-, rfl⟩ | ⟨-, rfl⟩ <;> rfl

/-! ### No part of it reads the engine -/

theorem withEngine_onlyEngine (s : State) (m : Mode) (r : Nat) (p c : Bool) (q : List Command) :
    OnlyEngineDiffers s (withEngine s m r p c q) :=
  ⟨⟨rfl, rfl, rfl, rfl, rfl, rfl, rfl⟩, rfl, rfl, rfl⟩

theorem afterExec_withEngine {t : State} {m : Mode} (hm : m = .faulted ↔ t.mode = .faulted) (i : Instr) (r : Nat)
    (p c : Bool) (q : List Command) :
    afterExec i (withEngine t m r p c q) = withEngine (afterExec i t) m r p c q := by
  by_cases ht : t.mode = .faulted
  · exact (if_pos (hm.mpr ht)).trans (by rw [afterExec, if_pos ht])
  · exact (if_neg fun h => ht (hm.mp h)).trans (by rw [afterExec, if_neg ht]; rfl)

/-- Outside `Faulted`, `ExecOne` does the same whatever the engine's fields are: it keeps the mode it finds, or it halts
or faults (R35, R152). -/
theorem execOne_withEngine {s u : State} (hs : s.mode ≠ .faulted) (h : execOne s = .next u) :
    (u.mode = s.mode ∧ ∀ m r p c q, m ≠ .faulted →
      execOne (withEngine s m r p c q) = .next (withEngine u m r p c q)) ∨
    ((u.mode = .halted ∨ u.mode = .faulted) ∧ ∀ m r p c q,
      execOne (withEngine s m r p c q) = .next (withEngine u u.mode r p c q)) := by
  have hfetch (m : Mode) (r : Nat) (p c : Bool) (q : List Command) : fetch (withEngine s m r p c q) = fetch s :=
    fetch_congr (withEngine_onlyEngine s m r p c q)
  obtain ⟨kind, hf, rfl⟩ | ⟨i, t, hf, ht, rfl⟩ := execOne_cases h
  · exact .inr ⟨.inr rfl, fun m r p c q => execOne_of_fault ((hfetch m r p c q).trans hf)⟩
  · rw [afterExec_mode]
    rcases exec_withEngine ht with ⟨hmode, hexec⟩ | ⟨hmode, hexec⟩
    · refine .inl ⟨hmode, fun m r p c q hm => ?_⟩
      rw [execOne_of_instr ((hfetch m r p c q).trans hf) (hexec m r p c q),
        afterExec_withEngine (by simp [hm, hmode, hs])]
    · refine .inr ⟨hmode, fun m r p c q => ?_⟩
      rw [execOne_of_instr ((hfetch m r p c q).trans hf) (hexec m r p c q), afterExec_withEngine Iff.rfl]

/-- The case of `exec_withEngine` in which only the mode is another one. -/
theorem exec_setMode {i : Instr} {s t : State} (h : exec i s = .next t) (m : Mode) :
    (t.mode = s.mode ∧ exec i (setMode s m) = .next (setMode t m)) ∨
      ((t.mode = .halted ∨ t.mode = .faulted) ∧ exec i (setMode s m) = .next t) := by
  have hb := exec_background h
  have hsame (m : Mode) : withEngine t m s.runCount s.pauseEnabled s.checkpoint s.commands = setMode t m := by
    rw [← hb.runCount, ← hb.pauseEnabled, ← hb.checkpoint, ← hb.commands]
    rfl
  rcases exec_withEngine h with ⟨hmode, hexec⟩ | ⟨hmode, hexec⟩
  · exact .inl ⟨hmode, (hexec m _ _ _ _).trans (congrArg _ (hsame m))⟩
  · exact .inr ⟨hmode, (hexec m _ _ _ _).trans (congrArg _ (hsame t.mode))⟩

/-- A single step from `Stepping` is the one from `Idle`, whether it goes on, ends or is refused (R160). -/
theorem singleStep_setMode_stepping {s : State} (hs : s.mode = .idle) :
    singleStep (setMode s .stepping) = singleStep s := by
  have hfetch : fetch (setMode s .stepping) = fetch s := rfl
  cases hf : fetch s with
  | refused r => simp only [singleStep, execOne, hfetch, hf]
  | fault kind =>
    rw [singleStep, singleStep, execOne_of_fault hf, execOne_of_fault (hfetch.trans hf)]
    rfl
  | instr i =>
    obtain ⟨t, ht⟩ := exec_total i s
    rw [singleStep, singleStep, execOne_of_instr hf ht]
    rcases exec_setMode ht .stepping with ⟨hmode, hexec⟩ | ⟨-, hexec⟩
    · rw [execOne_of_instr (hfetch.trans hf) hexec]
      simp [settleStep_afterExec, hmode, hs, setMode, traceRecord, memRead]
    · rw [execOne_of_instr (hfetch.trans hf) hexec]

/-- Every command does the same in `Stepping` as in `Idle` (R160). -/
theorem readyStep_setMode_stepping {s : State} (hs : s.mode = .idle) (hne : s.commands ≠ []) :
    readyStep (setMode s .stepping) = readyStep s := by
  obtain ⟨c, hc⟩ : ∃ c, s.commands.head? = some c := ⟨_, List.head?_eq_some_head hne⟩
  have hc' : (setMode s .stepping).commands.head? = some c := hc
  cases c with
  | step =>
    rw [readyStep_of_step hc, readyStep_of_step hc']
    exact singleStep_setMode_stepping (s := dropCommand s) hs
  | run =>
    rw [readyStep_of_run hc, readyStep_of_run hc']
    rfl
  | quit =>
    rw [readyStep_of_quit hc, readyStep_of_quit hc']
    rfl

end Sys2Proof.Machine
end

section
/-! SUPPORT. Runs of many steps: what every step keeps, the terminal modes (R157, R158), and a run to halt
beside single steps (R164). -/

namespace Sys2Proof.Machine

/-- What every step keeps holds after any number of steps. -/
theorem run_induction {P : State → Prop} (hstep : ∀ ⦃u v : State⦄, step u = .next v → P u → P v) {k : Nat}
    {s t : State} (h : Sys2Proof.core.run k s = .next t) (hs : P s) : P t := by
  induction k generalizing s with
  | zero => exact Host.Outcome.next.inj h ▸ hs
  | succ k ih =>
    obtain ⟨u, hu, hrest⟩ := run_succ.mp h
    exact ih hrest (hstep hu hs)

/-! ### The terminal modes -/

/-- `t` is `s` after its end: nothing but the host's side of it changes any more (R157, R158, R163). -/
structure SameEnd (s t : State) : Prop where
  arch  : SameArch s t
  trace : t.trace = s.trace
  fault : t.fault = s.fault
  mode  : t.mode = s.mode ∨ t.mode = .quit

theorem SameEnd.refl (s : State) : SameEnd s s := ⟨⟨rfl, rfl, rfl, rfl, rfl, rfl, rfl⟩, rfl, rfl, .inl rfl⟩

theorem SameEnd.dropCommand {s u : State} (h : SameEnd s u) : SameEnd s (dropCommand u) := by
  obtain ⟨⟨hA, hB, hpc, hzf, hovf, hstore, hsym⟩, htrace, hfault, hmode⟩ := h
  exact ⟨⟨hA, hB, hpc, hzf, hovf, hstore, hsym⟩, htrace, hfault, hmode⟩

theorem SameEnd.quit {s u : State} (h : SameEnd s u) : SameEnd s (quit u) := by
  obtain ⟨⟨hA, hB, hpc, hzf, hovf, hstore, hsym⟩, htrace, hfault, -⟩ := h
  exact ⟨⟨hA, hB, hpc, hzf, hovf, hstore, hsym⟩, htrace, hfault, .inr rfl⟩

/-- A step in a terminal mode changes nothing but the queue, or quits; after that there is no step. -/
theorem SameEnd.step {s u v : State} (hend : s.mode = .halted ∨ s.mode = .faulted) (hstep : step u = .next v)
    (h : SameEnd s u) : SameEnd s v := by
  have hmode : u.mode = s.mode := h.mode.resolve_right (mode_ne_quit_of_step hstep)
  rw [step_of_ended (hmode ▸ hend), endedStep_eq] at hstep
  obtain rfl := Host.Outcome.next.inj hstep
  split
  · exact h.dropCommand.quit
  · exact h.dropCommand

theorem run_sameEnd {k : Nat} {s t : State} (hend : s.mode = .halted ∨ s.mode = .faulted)
    (h : Sys2Proof.core.run k s = .next t) : SameEnd s t :=
  run_induction (fun _ _ hstep hs => hs.step hend hstep) h (.refl s)

/-! ### Single steps and a run, side by side -/

/-- `s` as a run with `r` counted instructions finds it, with no command waiting. -/
def asRun (s : State) (r : Nat) : State := withEngine s .running r true false []

/-- One single step and one pass of a run from the same state: both go on, or both end alike (R154, R155). -/
theorem singleStep_beside_run {s v : State} (r : Nat) (hm : s.mode = .idle ∨ s.mode = .stepping)
    (hc : s.commands.head? = some .step) (h : step s = .next v) :
    v.commands = s.commands.tail ∧ v.answers = s.answers ∧
    ((v.mode = .stepping ∧
        step (asRun s r) = .next (withEngine v .running (r + 1) true ((r + 1) % 1000 == 0) [])) ∨
      ((v.mode = .halted ∨ v.mode = .faulted) ∧ step (asRun s r) = .next (withEngine v v.mode r true false []))) := by
  obtain ⟨u, hu, rfl⟩ := (step_of_commanded hm hc).mp h
  have hb := execOne_background hu
  have hcommands : u.commands = s.commands.tail := hb.commands
  have hanswers : u.answers = s.answers := hb.answers
  have hunfaulted : (dropCommand s).mode ≠ .faulted := by rcases hm with hm | hm <;> simp [hm]
  have hrun {w : State} : step (asRun s r) = .next w ↔ ∃ x, execOne (asRun s r) = .next x ∧ settleRun x = w :=
    step_of_unpaused rfl rfl
  rcases execOne_withEngine hunfaulted hu with ⟨hmode, hexec⟩ | ⟨hmode, hexec⟩
  · have hsettle : settleStep u = setMode u .stepping :=
      if_neg (by rw [hmode]; rcases hm with hm | hm <;> simp [hm])
    rw [hsettle]
    exact ⟨hcommands, hanswers, .inl ⟨rfl, hrun.mpr ⟨_, hexec .running r true false [] (by simp), rfl⟩⟩⟩
  · have hsettle : settleStep u = u := if_pos hmode
    rw [hsettle]
    have hended : settleRun (withEngine u u.mode r true false []) = withEngine u u.mode r true false [] :=
      if_neg fun hrunning : u.mode = .running => by simp [hrunning] at hmode
    exact ⟨hcommands, hanswers, .inr ⟨hmode, hrun.mpr ⟨_, hexec .running r true false [], hended⟩⟩⟩

/-- Single steps that halt for the first time at the `k`-th are followed by a run that its count does not pause before:
it halts in `k` passes, the last one uncounted (R154 to R156, R164). -/
theorem run_asRun_of_singleSteps {k r : Nat} {s t : State} (hm : s.mode = .idle ∨ s.mode = .stepping)
    (hcount : r + k ≤ 1000) (hc : s.commands = List.replicate k .step) (hrun : Sys2Proof.core.run k s = .next t)
    (ht : t.mode = .halted) (hfirst : ∀ j u, j < k → Sys2Proof.core.run j s = .next u → u.mode ≠ .halted) :
    Sys2Proof.core.run k (asRun s r) = .next (withEngine t .halted (r + k - 1) true false []) ∧
      t.answers = s.answers := by
  induction k generalizing s r with
  | zero =>
    obtain rfl := Host.Outcome.next.inj hrun
    simp [ht] at hm
  | succ k ih =>
    obtain ⟨v, hv, hrest⟩ := run_succ.mp hrun
    obtain ⟨hcommands, hanswers, hpass⟩ := singleStep_beside_run r hm (by simp [hc, List.replicate_succ]) hv
    rw [hc, List.replicate_succ, List.tail_cons] at hcommands
    rcases hpass with ⟨hmv, hpass⟩ | ⟨hmv | hmv, hpass⟩
    · have hk : k ≠ 0 := by
        rintro rfl
        obtain rfl := Host.Outcome.next.inj hrest
        simp [hmv] at ht
      have hbelow : ((r + 1) % 1000 == 0) = false := by
        rw [beq_eq_false_iff_ne]
        omega
      obtain ⟨hrun', hans⟩ := ih (r := r + 1) (.inr hmv) (by omega) hcommands hrest
        fun j u hj hu => hfirst (j + 1) u (by omega) (run_succ.mpr ⟨v, hv, hu⟩)
      rw [show r + (k + 1) - 1 = r + 1 + k - 1 by omega]
      rw [hbelow] at hpass
      exact ⟨run_succ.mpr ⟨_, hpass, hrun'⟩, hans.trans hanswers⟩
    · have hk : k = 0 := by
        by_contra hk
        exact hfirst 1 v (by omega) (run_succ.mpr ⟨v, hv, rfl⟩) hmv
      subst hk
      obtain rfl := Host.Outcome.next.inj hrest
      rw [hmv] at hpass
      exact ⟨run_succ.mpr ⟨_, hpass, rfl⟩, hanswers⟩
    · rcases (run_sameEnd (.inr hmv) hrest).mode with hmt | hmt <;> simp [hmt, hmv] at ht

end Sys2Proof.Machine
end

section
/-! The statements of 45_fetch_dispatch.md, settled. -/

namespace Sys2Proof.Machine

/-- Settles O55: the step that starts the run leaves the state as a run finds it, and from there the run follows the
single steps. -/
theorem runToHaltAgreesWithSingleSteps : Obligations.RunToHaltAgreesWithSingleSteps := by
  intro s t k hm hk hc hrun ht hfirst
  obtain ⟨hpasses, hanswers⟩ := run_asRun_of_singleSteps (r := 0) hm (by omega) hc hrun ht hfirst
  have hstart : step { s with commands := [.run] } = .next (asRun s 0) :=
    (step_of_ready (s := { s with commands := [.run] }) hm).trans (readyStep_of_run rfl)
  exact ⟨_, run_succ.mpr ⟨_, hstart, hpasses⟩, rfl, (withEngine_onlyEngine t _ _ _ _ _).arch, rfl, hanswers,
    congrArg (· - 1) (Nat.zero_add k)⟩

/-- Settles O42: either fault of the fetch makes its step the fault entry. -/
theorem fetchRaisesOutOfBoundsThenEmptySlot : Obligations.FetchRaisesOutOfBoundsThenEmptySlot := fun _ hs =>
  ⟨fun hout => step_of_fetchFault hs (fetch_outside hout),
    fun hlo hhi hempty => step_of_fetchFault hs (fetch_emptySlot hlo hhi hempty)⟩

/-- Settles O45: a step that fetches traces what its `ExecOne` does, and any other step traces nothing. -/
theorem traceRecordsEveryCompletedInstruction : Obligations.TraceRecordsEveryCompletedInstruction := by
  intro s t h
  by_cases hs : Fetches s
  · obtain ⟨s', u, hu, hbefore, htrace, hafter, htrace', hmode⟩ := step_of_fetches hs h
    obtain ⟨hcompleted, hnone⟩ := execOne_trace hu
    simp only [fetch_congr hbefore, htrace, ← htrace', ne_eq, ← hmode] at hcompleted hnone
    refine ⟨fun i hi hok => ⟨traceRecord i t, ?_, rfl, rfl, rfl, rfl, rfl, rfl, rfl⟩, fun hno => hnone ?_⟩
    · rw [traceRecord_congr i hafter.arch]
      exact hcompleted i (executes_iff.mp hi).2 hok
    · exact hno.imp_right fun hno i hi => hno i (executes_iff.mpr ⟨hs, hi⟩)
  · exact ⟨fun i hi => absurd (executes_iff.mp hi).1 hs, fun _ => trace_of_not_fetches hs h⟩

/-- Settles O46, mode by mode. -/
theorem modeTransitions : Obligations.ModeTransitions := by
  intro s t h
  refine ⟨fun hm => ⟨fun hc => ?_, fun hc => ?_, fun hc => ?_, fun hc => ?_⟩, fun hm => ?_,
    fun hm => ⟨fun hc => ?_, fun hc => ?_⟩, mode_ne_quit_of_step h⟩
  · obtain ⟨u, -, rfl⟩ := (step_of_commanded hm hc).mp h
    exact settleStep_mode_mem u
  · rw [step_of_ready hm, readyStep_of_run hc] at h
    exact Host.Outcome.next.inj h ▸ rfl
  · rw [step_of_ready hm, readyStep_of_quit hc] at h
    exact Host.Outcome.next.inj h ▸ rfl
  · rw [step_of_ready hm, readyStep_of_nil hc] at h
    exact (Host.Outcome.next.inj h).symm
  · cases hc : s.checkpoint with
    | true =>
      obtain rfl := Host.Outcome.next.inj ((step_of_paused hm hc).symm.trans h)
      rcases takeAnswer_mode s with hmode | ⟨hmode, hanswer⟩
      · simp [hmode, hm]
      · simp [hmode, hanswer]
    | false =>
      rcases unpaused_cases hm hc h with ⟨hmode, -⟩ | hmode | hmode <;> simp [hmode]
  · rw [step_of_ended hm, endedStep_eq, if_pos hc] at h
    exact Host.Outcome.next.inj h ▸ rfl
  · rw [step_of_ended hm, endedStep_eq, if_neg hc] at h
    exact Host.Outcome.next.inj h ▸ rfl

/-- Settles O49: below 1000 the only multiple of 1000 that the next count can be is 1000 itself. -/
theorem checkpointAfterTheThousandth : Obligations.CheckpointAfterTheThousandth := by
  intro s t hinv hm h hmt
  refine ⟨fun hc => ?_, fun hc => ?_⟩
  · rcases unpaused_cases hm hc h with ⟨-, hcount, -, hcheck⟩ | hend | hend
    · refine ⟨hcount, ?_⟩
      rw [hcheck, Bool.and_eq_true, beq_iff_eq]
      refine and_congr_right fun hp => ?_
      have hlt : s.runCount < 1000 := hinv.counting hm hp hc
      omega
    · simp [hmt] at hend
    · simp [hmt] at hend
  · obtain rfl := Host.Outcome.next.inj ((step_of_paused hm hc).symm.trans h)
    exact ⟨(takeAnswer_onlyEngine s).arch, takeAnswer_runCount s⟩

/-- Settles O51, by induction on the number of steps: a pass goes on without a pause, or ends the run for good. -/
theorem resumedRunEndsOnlyByHltOrFault : Obligations.ResumedRunEndsOnlyByHltOrFault := by
  intro k
  induction k with
  | zero =>
    rintro s _ hm hp hc ⟨⟩
    exact .inl ⟨hm, hp, hc, rfl⟩
  | succ k ih =>
    intro s t hm hp hc h
    obtain ⟨u, hu, hrest⟩ := run_succ.mp h
    rcases unpaused_cases hm hc hu with ⟨hmu, hcount, hpu, hcu⟩ | hend
    · have hgoing := ih u t hmu (hpu.trans hp) (by simp [hcu, hp]) hrest
      rwa [hcount, Nat.add_assoc, Nat.add_comm 1 k] at hgoing
    · right
      rcases (run_sameEnd hend hrest).mode with hmt | hmt
      · rw [hmt]
        exact hend.imp_right .inl
      · exact .inr (.inr hmt)

/-- Settles O52: every step in a terminal mode leaves the end as it is. -/
theorem haltedAndFaultedAreTerminal : Obligations.HaltedAndFaultedAreTerminal := by
  intro k s t hend h
  obtain ⟨harch, htrace, hfault, hmode⟩ := run_sameEnd hend h
  exact ⟨harch, htrace, hfault, hmode⟩

/-- Settles O39, from what HLT completes with. -/
theorem hltOnlyHalts : Obligations.HltOnlyHalts :=
  ⟨decode_encode .hlt, fun _ => exec_of_completes rfl⟩

/-- Settles O41: the fetch finds `i`, so the step's `ExecOne` is `exec i` and what follows it. -/
theorem stepRunsTheDecodedInstruction : Obligations.StepRunsTheDecodedInstruction := by
  intro s i hlo hhi hd
  have hfetch : fetch s = .instr i := fetch_eq_instr.mpr ⟨pcInRange_iff.mpr ⟨hlo, hhi⟩, hd⟩
  refine ⟨fun rest t hm hc ht => ?_, fun t hm hc ht => ?_⟩
  · rw [← dropCommand_of_cons hc] at ht
    have hone : execOne (dropCommand s) = .next (afterExec i t) :=
      execOne_of_instr ((fetch_congr (dropCommand_onlyEngine s)).trans hfetch) ht
    exact (step_of_commanded hm (by simp [hc])).mpr ⟨_, hone, settleStep_afterExec i t⟩
  · have hmode : t.mode = .running ∨ t.mode = .halted ∨ t.mode = .faulted := hm ▸ exec_mode ht
    exact (step_of_unpaused hm hc).mpr ⟨_, execOne_of_instr hfetch ht, settleRun_afterExec i hmode⟩

/-- Settles O47: the two modes take the same command, and what it does overwrites the mode or does not read it. -/
theorem idleAndSteppingAreEquivalent : Obligations.IdleAndSteppingAreEquivalent := by
  intro s hne
  rw [step_of_ready (.inl rfl), step_of_ready (.inr rfl)]
  exact (readyStep_setMode_stepping (s := setMode s .idle) rfl hne).symm

/-- Settles O48, from what the command `a` does in `Idle` and `Stepping`. -/
theorem runStartsWithAFreshCount : Obligations.RunStartsWithAFreshCount := by
  intro s rest hm hc
  rw [step_of_ready hm, readyStep_of_run (by simp [hc]), dropCommand_of_cons hc]
  rfl

/-- Settles O50, answer by answer. -/
theorem checkpointAnswers : Obligations.CheckpointAnswers := by
  intro s hm hc
  rw [step_of_paused hm hc]
  exact ⟨fun rest ha => by rw [takeAnswer, ha], fun rest ha => by rw [takeAnswer, ha],
    fun ha => by rw [takeAnswer, ha]⟩

/-- Settles O53: outside a run `q` is taken whatever the mode, and a run takes answers only. -/
theorem quitIsTakenExceptWhileRunning : Obligations.QuitIsTakenExceptWhileRunning := by
  refine ⟨fun s rest hrun hquit hc => ?_, fun s t hm h => ?_⟩
  · rw [step_of_quitCommand hrun hquit (by simp [hc]), dropCommand_of_cons hc]
    rfl
  · cases hc : s.checkpoint with
    | true =>
      obtain rfl := Host.Outcome.next.inj ((step_of_paused hm hc).symm.trans h)
      exact ⟨takeAnswer_commands s, takeAnswer_exitCode s⟩
    | false =>
      obtain ⟨u, hu, rfl⟩ := (step_of_unpaused hm hc).mp h
      have hb := execOne_background hu
      exact ⟨(settleRun_commands u).trans hb.commands, (settleRun_exitCode u).trans hb.exitCode⟩

end Sys2Proof.Machine
end

section
/-! SUPPORT. How a fault is entered (R200 to R203): by an instruction that raises it, by the `ExecOne` that fetches and
runs that instruction, and by the step around it. -/

namespace Sys2Proof.Machine

/-! ### The fault of one instruction -/

/-- The fault record's info is the operand (R202). -/
theorem Raises.info_eq_operand {i : Instr} {s : State} {kind : FaultKind} {info : Option Text}
    (h : Raises i s kind info) : info = i.operand := by
  cases i with
  | dec n | lda n | ldb n | ldi n | str n | jmp n | jzs n | jvs n =>
    obtain ⟨-, -, hinfo⟩ := h
    exact hinfo
  | xch | add | hlt => exact h.elim

theorem Raises.ne_hlt {i : Instr} {s : State} {kind : FaultKind} {info : Option Text} (h : Raises i s kind info) :
    i ≠ .hlt := by
  rintro rfl
  exact h

theorem Raises.faultEntry {i : Instr} {s : State} {kind : FaultKind} {info : Option Text} (h : Raises i s kind info) :
    FaultEntry s (raise s kind info) kind i.operand :=
  h.info_eq_operand ▸ raise_faultEntry s kind info

/-- A completed instruction does not enter `Faulted`. -/
theorem Completes.mode_ne_faulted {i : Instr} {s t : State} (h : Completes i s t) (hs : s.mode ≠ .faulted) :
    t.mode ≠ .faulted := by
  obtain ⟨-, -, hmode | ⟨-, hmode⟩⟩ := h.background
  · exact hmode ▸ hs
  · simp [hmode]

/-- An instruction enters `Faulted` only by raising its own fault (R200, R203). -/
theorem raises_of_exec_faulted {i : Instr} {s t : State} (h : exec i s = .next t) (hs : s.mode ≠ .faulted)
    (ht : t.mode = .faulted) : ∃ kind info, Raises i s kind info ∧ t = raise s kind info :=
  (exec_cases h).resolve_right fun hc => hc.mode_ne_faulted hs ht

/-! ### The fault of one step -/

/-- An `ExecOne` that ends in `Faulted` is the fault entry, of the fetch or of the instruction (R151, R152, R203). -/
theorem faultEntry_of_execOne_faulted {s u : State} (h : execOne s = .next u) (hs : s.mode ≠ .faulted)
    (hu : u.mode = .faulted) : ∃ kind info, FaultEntry s u kind info := by
  obtain ⟨kind, -, rfl⟩ | ⟨i, t, -, ht, rfl⟩ := execOne_cases h
  · exact ⟨kind, none, raise_faultEntry s kind none⟩
  · rw [afterExec_mode] at hu
    obtain ⟨kind, info, -, rfl⟩ := raises_of_exec_faulted ht hs hu
    rw [afterExec, if_pos hu]
    exact ⟨kind, info, raise_faultEntry s kind info⟩

theorem settleStep_of_faulted {u : State} (h : u.mode = .faulted) : settleStep u = u := if_pos (.inr h)

theorem settleRun_of_faulted {u : State} (h : u.mode = .faulted) : settleRun u = u := if_neg (by simp [h])

/-- A step that enters `Faulted` is an `ExecOne` and nothing more, but for the command it took (R154, R155). -/
theorem execOne_of_step_faulted {s t : State} (h : step s = .next t) (hs : s.mode ≠ .faulted)
    (ht : t.mode = .faulted) : ∃ q, execOne { s with commands := q } = .next t := by
  rcases step_cases h with ⟨-, hready⟩ | ⟨hm, hrunning⟩ | ⟨hm, hended⟩
  · rcases hready with ⟨-, rfl⟩ | ⟨-, u, hu, rfl⟩ | ⟨-, rfl⟩ | ⟨-, rfl⟩
    · exact absurd ht hs
    · rw [settleStep_of_faulted (settleStep_mode_eq_faulted.mp ht)]
      exact ⟨s.commands.tail, hu⟩
    · cases ht
    · cases ht
  · rcases hrunning with ⟨-, rfl⟩ | ⟨-, u, hu, rfl⟩
    · rcases takeAnswer_mode s with hmode | ⟨hmode, -⟩ <;> simp [hmode, hm] at ht
    · rw [settleRun_mode] at ht
      rw [settleRun_of_faulted ht]
      exact ⟨s.commands, hu⟩
  · rcases hended with ⟨-, rfl⟩ | ⟨-, rfl⟩ | ⟨-, rfl⟩
    · exact absurd ht hs
    · exact absurd ht hs
    · cases ht

end Sys2Proof.Machine
end

section
/-! The statements of 60_exceptions.md, settled. -/

namespace Sys2Proof.Machine

/-- Settles O40: an instruction raises its fault, which HLT cannot, or completes, where only HLT writes the mode. -/
theorem onlyHltHaltsTheEngine : Obligations.OnlyHltHaltsTheEngine := by
  intro i s t h
  refine ⟨exec_background h, ?_⟩
  obtain ⟨kind, info, hr, rfl⟩ | hc := exec_cases h
  · exact .inr ⟨hr.ne_hlt, .inr ⟨kind, hr.faultEntry⟩⟩
  · obtain ⟨-, hfault, hmode⟩ := hc.background
    rcases eq_or_ne i .hlt with rfl | hi
    · obtain rfl := hc
      exact .inl ⟨rfl, rfl, rfl⟩
    · exact .inr ⟨hi, .inl ⟨hmode.resolve_right fun hhlt => hi hhlt.1, hfault⟩⟩

/-- Settles O43: the instruction raised its fault, whose kind is the one that `Raises` gives it. -/
theorem faultingInstructionWritesNothing : Obligations.FaultingInstructionWritesNothing := by
  intro i s t hs h ht
  obtain ⟨kind, info, hr, rfl⟩ := raises_of_exec_faulted h hs ht
  refine ⟨kind, hr.faultEntry, ?_⟩
  cases i with
  | dec n | lda n | ldb n | ldi n | str n | jmp n | jzs n | jvs n =>
    obtain ⟨-, hkind, -⟩ := hr
    exact hkind
  | xch | add | hlt => exact hr

/-- Settles O44: the step is an `ExecOne`, and that is the fault entry; the command taken is no part of what the fault
entry keeps. -/
theorem faultsArePrecise : Obligations.FaultsArePrecise := by
  intro s t h hs ht
  obtain ⟨q, hone⟩ := execOne_of_step_faulted h hs ht
  obtain ⟨kind, info, harch, hback, -, hfault⟩ := faultEntry_of_execOne_faulted hone hs ht
  exact ⟨{ harch with }, hback.trace, hback.runCount, hback.prog, hback.progLen, kind, info, hfault⟩

end Sys2Proof.Machine
end

section
/-! SUPPORT. Loads give clean launches (R68, R71, R234). -/

namespace Sys2Proof.Machine

/-- An image of at most 128 loadable records, put in place, is a loader image. -/
theorem loaderImage_withImage (p : Params) {image : List Record} (hlen : image.length ≤ Config.progSlots)
    (hall : image.all loadable = true) : LoaderImage (withImage p image) where
  len_le := hlen
  wf := Program.wf_withImage p image
  loadable _ he := List.all_eq_true.mp hall _ (mem_imageCells he).1

/-- What a load gives is the reset state over a loader image, with no host input waiting (R68, R230). -/
theorem cleanLaunch_of_loadImage {p : Params} {image : List Record} {s : State} (h : loadImage p image = .ready s) :
    CleanLaunch s := by
  obtain ⟨hlen, hall, rfl⟩ := loadImage_eq_ready.mp h
  exact ⟨loaderImage_withImage p hlen hall, rfl⟩

end Sys2Proof.Machine
end

section
/-! The launch statement of 70_reset_and_hazards.md, settled. -/

namespace Sys2Proof.Machine

/-- Settles O14: a text loads as the image of its lines' records; a clean launch is the reset state but for its
loader image, parameters and host inputs, so its invariants follow from the reset values and the image. -/
theorem launchMeetsTheInvariants : Obligations.LaunchMeetsTheInvariants :=
  ⟨fun _ _ _ h => cleanLaunch_of_loadImage h, fun _ h => ⟨h.dataInv, h.engineInv, h.valuesFit32⟩⟩

end Sys2Proof.Machine
end
